-- ==== Sys2Proof/Word.lean ====
section
/-!
DEFINITION. Words, bytes and register banks.

`00_scope.md` R9 fixes the two kinds of value (a word is 32 bits, a byte is 8 bits, both unsigned), and
`10_state.md` R20 the arrays that hold them (`H[0..7]`, `M[0..15]`, `W[0..63]`, `K[0..63]`). Every array of
this hardware has a power of two of cells and is indexed by a field of exactly that many bits, so one type
`Bank` serves all of them and no index can be out of range (`20_memory.md` R41).
-/

namespace Sys2Proof

/-- A word: an unsigned integer in `[0, 2^32)`, bit 31 the most significant (`00_scope.md` R9). -/
abbrev Word := BitVec 32

/-- A byte: an unsigned integer in `[0, 2^8)` (`00_scope.md` R9). -/
abbrev Byte := BitVec 8

/-- A bank of `2^k` cells, indexed by a `k`-bit field. -/
structure Bank (α : Type) (k : Nat) where
  cells : Vector α (2 ^ k)
  deriving DecidableEq, Repr

namespace Bank

variable {α : Type} {k : Nat}

/-- The cell with index `i`. -/
def get (b : Bank α k) (i : BitVec k) : α :=
  b.cells[i.toNat]'i.isLt

/-- The bank with the cell `i` replaced by `v`. -/
def put (b : Bank α k) (i : BitVec k) (v : α) : Bank α k :=
  ⟨b.cells.set i.toNat v i.isLt⟩

/-- The bank whose cell `i` is `f i`: how the pseudocode's `for i` inside `par … end` is written. -/
def build (f : BitVec k → α) : Bank α k :=
  ⟨Vector.ofFn fun i => f (BitVec.ofFin i)⟩

/-- The bank with `v` in every cell. -/
def fill (v : α) : Bank α k :=
  build fun _ => v

end Bank

end Sys2Proof
end

