-- ==== Sys2Proof/Config.lean ====
section
/-!
DEFINITION. The free values, and the parameters the spec leaves open.

Everything here is opaque: Lean can neither evaluate it nor prove a value of it, so a claim about the model
holds for every choice. The constant tables `K` and `IV` are not here: `10_state.md` R25 makes them closed
constants, not configuration (`Sys2Proof/Machine/Constants.lean`).
-/

namespace Sys2Proof

/-- The free value: the word drawn at draw number `n`. It stands for the unspecified word that `RDH` returns
while `READY = 0` (`60_exceptions.md` R176: "any of the `2^32` values, not necessarily the old `H[i]` nor the
new, not necessarily the same on two reads") and for a block word that nothing has written, in the one step
that could copy it (`41_schedule.md` R100, log entry 3). The machine numbers the draws by `State.draws`.
Safe: a claim holds whatever is drawn (log entry 2). -/
opaque Config.freeWord : Nat → Word

/-- `BASE`: where the register window sits in a byte-addressed host's address space (`00_scope.md` R8,
`92_eei_decisions.md` D2, open). No rule reads it but the address formula of `20_memory.md` R44. -/
opaque Config.base : Nat

/-- `STEP_CYCLES`: clock cycles per micro-operation (`00_scope.md` R8, `92_eei_decisions.md` D8, open). No rule
reads it, and the model has no notion of time between steps (`70_reset_and_hazards.md` R208). -/
opaque Config.stepCycles : Nat

/-- The electrical forms of reset that `00_scope.md` R8 names under `RESET_KIND`. -/
structure ResetKind where
  synchronous : Bool
  activeHigh : Bool
  deriving DecidableEq, Repr, Inhabited

/-- `RESET_KIND` (`00_scope.md` R8, `92_eei_decisions.md` D10, open). No rule reads it. -/
opaque Config.resetKind : ResetKind

end Sys2Proof
end

