-- ==== Sys2Proof/Syntax.lean ====
section
/-!
DEFINITION. The instructions: one constructor per row of `spec/opcode_table.json`.

`00_scope.md` R1: "the 'instruction set' of this spec is (a) the eight host commands of `43_commands.md` and
(b) the five sequencer micro-operations". The eight commands are encoded in format `BUS`, a 39-bit transaction
word; the five micro-operations in format `SEQ`, the 9-bit selector `(phase, t)` (`30_encoding.md` R60, R66).
-/

namespace Sys2Proof

/-- The sequencer's phase, which names the micro-operation the engine performs next (`10_state.md` R28). An
enumerated type, as `30_encoding.md` R66 asks. -/
inductive Phase where
  | idle
  | load
  | expand
  | copy
  | round
  | accum
  deriving DecidableEq, Repr

/-- The instructions of the opcode table. -/
inductive Instr where
  /-- `NOPC`: write `CTRL` with no bit set (`43_commands.md` R133). -/
  | nopc
  /-- `INIT`: load the initial hash value (R130). -/
  | init
  /-- `START`: compress the block in `M` into `H` (R131). -/
  | start
  /-- `INITSTART`: `INIT`, then `START`, in one command (R132). -/
  | initstart
  /-- `WRBLK i, v`: write one block word (R135). -/
  | wrblk (i : BitVec 4) (v : Word)
  /-- `RDBLK i`: read one block word back (R136). -/
  | rdblk (i : BitVec 4)
  /-- `RDH i`: read one hash-state word (R137). -/
  | rdh (i : BitVec 3)
  /-- `RDST`: read the status register (R138). -/
  | rdst
  /-- `LOADW`: load the block into the first 16 schedule words (`41_schedule.md` R100). -/
  | loadw
  /-- `EXPAND[t]`: compute the schedule word `t`, `16 <= t <= 63` (R101). -/
  | expand (t : BitVec 6)
  /-- `COPY`: initialise the working registers from the hash state (`42_compression.md` R110). -/
  | copy
  /-- `ROUND[t]`: one compression round, `0 <= t <= 63` (R111). -/
  | round (t : BitVec 6)
  /-- `ACCUM`: add the working registers into the hash state (R112). -/
  | accum
  deriving DecidableEq, Repr

/-- An encoded instruction: a transaction word, which the host sends (`30_encoding.md` R60), or a sequencer
selector, which nobody transmits: it is the engine's own `(phase, t)` (R66). -/
inductive Encoded where
  | bus (word : BitVec 39)
  | seq (selector : BitVec 9)
  deriving DecidableEq, Repr

end Sys2Proof
end

