-- ==== Sys2Proof/Machine/State.lean ====
section
/-!
DEFINITION. The state of the machine, why a step can stop, and the state after reset.

The engine's state is the tuple of `10_state.md` R20, with the "written" bit of each block word and the sticky
mark of `60_exceptions.md` R177 and R173. `CTRL` holds no state (R30), `STATUS` and `READY` are functions of
`phase` (R29, R31), `BLOCKi` is `M[i]` (R32) and `DIGESTi` is `H[i]` (R33). Beside the engine the state holds
what stands between it and the agents outside it (`00_scope.md` R12): the events that have not taken effect
yet, and the words the reads have returned.
-/

namespace Sys2Proof.Machine

/-- Why the machine stops with a fault. The spec has no fault and no stuck case (`60_exceptions.md` R170,
`93_implementation_defined.md` part 1); the one constructor closes off states that no run reaches. -/
inductive Fault where
  /-- Raised by `step` when `(phase, t)` is a selector outside `30_encoding.md` R67's table, and by
  `execExpand` for a `t` below 16, which no selector of the table holds. Safe: the spec says such selectors
  are unreachable and need be given no meaning (log entry 6). -/
  | unreachableSelector
  deriving DecidableEq, Repr

/-- Why a transaction is refused: the closed list of `60_exceptions.md` R174, in its order ("A model's refusal type
should have exactly these eight constructors"). The sticky mark of R173 holds one of these. -/
inductive RefusalReason where
  /-- `X1`: any access to the offsets `0x02..0x0F` and `0x28..0x3F`. -/
  | reservedOffset
  /-- `X2`: a read of `CTRL`. -/
  | readCtrl
  /-- `X3`: a write to `STATUS`. -/
  | writeStatus
  /-- `X4`: a write to a `DIGESTi`. -/
  | writeDigest
  /-- `X5`: a write to `CTRL` with any of `wdata[31:2]` set. -/
  | ctrlReservedBits
  /-- `X6`: a write command while `READY = 0`. -/
  | writeWhileBusy
  /-- `X7`: `START` or `INITSTART` with some `M[i]` never written since reset. -/
  | startUnwritten
  /-- `X8`: `RDBLK i` with `M[i]` never written since reset. -/
  | readUnwritten
  deriving DecidableEq, Repr

/-- Why a step is refused. After the first, one constructor for each reason of `RefusalReason`. A refused transaction
is one to which the spec assigns no behaviour (`60_exceptions.md` R173), and "the step has no successor state"
(`93_implementation_defined.md` part 1). A refusal is safe, since nothing can then be proved of what the hardware does
(R173: "This errs toward unprovable"). -/
inductive Refusal where
  /-- Raised by `exec` alone, for an instruction that has no meaning yet: the host's interface asks for the name. No
  instruction of this model is one, so nothing raises it. Safe. -/
  | notModelled (mnemonic : String)
  /-- `X1`. Raised by `step` for a reserved offset (`30_encoding.md` R68(a): "A model refuses it"). Safe. -/
  | reservedOffset
  /-- `X2`. Raised by `step` for a read of `CTRL` (`30_encoding.md` R68(b)). Safe. -/
  | readCtrl
  /-- `X3`. Raised by `step` for a write to `STATUS` (`30_encoding.md` R68(c)). Safe. -/
  | writeStatus
  /-- `X4`. Raised by `step` for a write to a `DIGESTi` (`30_encoding.md` R68(d)). Safe. -/
  | writeDigest
  /-- `X5`. Raised by `step` for a write to `CTRL` with reserved bits set (`30_encoding.md` R68(e)). Safe. -/
  | ctrlReservedBits
  /-- `X6`. Raised by `NOPC`, `INIT`, `START`, `INITSTART` and `WRBLK` while `READY = 0` (`60_exceptions.md` R175: "is
  refused, reason `X6`"). Safe. -/
  | writeWhileBusy
  /-- `X7`. Raised by `START` and `INITSTART` when some `M[i]` has not been written since reset (`60_exceptions.md` R177:
  "`START` or `INITSTART` with any such word is refused, reason `X7`"). Safe. -/
  | startUnwritten
  /-- `X8`. Raised by `RDBLK i` when `M[i]` has not been written since reset (`60_exceptions.md` R177: "`RDBLK i` of such a
  word is refused, reason `X8`"). Safe. -/
  | readUnwritten
  deriving DecidableEq, Repr

/-- The refusal for a reason of `60_exceptions.md` R174. -/
def RefusalReason.refusal : RefusalReason → Refusal
  | .reservedOffset => .reservedOffset
  | .readCtrl => .readCtrl
  | .writeStatus => .writeStatus
  | .writeDigest => .writeDigest
  | .ctrlReservedBits => .ctrlReservedBits
  | .writeWhileBusy => .writeWhileBusy
  | .startUnwritten => .startUnwritten
  | .readUnwritten => .readUnwritten

/-- The reason of `60_exceptions.md` R174 in a refusal. -/
def Refusal.reason : Refusal → Option RefusalReason
  | .notModelled _ => none
  | .reservedOffset => some .reservedOffset
  | .readCtrl => some .readCtrl
  | .writeStatus => some .writeStatus
  | .writeDigest => some .writeDigest
  | .ctrlReservedBits => some .ctrlReservedBits
  | .writeWhileBusy => some .writeWhileBusy
  | .startUnwritten => some .startUnwritten
  | .readUnwritten => some .readUnwritten

/-- What can happen to the machine from outside or by the engine's own turn (`00_scope.md` R12). -/
inductive Event where
  /-- The `HOST` issues one bus transaction (`30_encoding.md` R60). -/
  | bus (word : BitVec 39)
  /-- The `ENGINE` takes its turn: one micro-operation, or nothing when `phase` is `IDLE` (`20_memory.md`
  R52(b): "Between two consecutive host transactions the engine performs any number, zero or more, of its
  pending micro-operations"). -/
  | engine
  /-- `RESET`, the external event (`70_reset_and_hazards.md` R190). -/
  | reset
  deriving DecidableEq, Repr

/-- The working registers `a..h`, also written `reg[0..7]` (`10_state.md` R24). -/
structure Working where
  (a b c d e f g h : Word)
  deriving DecidableEq, Repr

/-- The working registers as `reg[0..7]`, with `reg[0] = a`, …, `reg[7] = h` (`10_state.md` R24). -/
def Working.bank (r : Working) : Bank Word 3 :=
  ⟨#v[r.a, r.b, r.c, r.d, r.e, r.f, r.g, r.h]⟩

/-- The state of the machine. -/
structure State where
  /-- The hash state `H[0..7]` (`10_state.md` R21). -/
  H : Bank Word 3
  /-- The block buffer `M[0..15]` (R22). -/
  M : Bank Word 4
  /-- The message schedule `W[0..63]` (R23). -/
  W : Bank Word 6
  /-- The working registers `a..h` (R24). -/
  reg : Working
  /-- The sequencer's phase (R28). -/
  phase : Phase
  /-- The sequencer's index, 6 bits (R28). -/
  t : BitVec 6
  /-- The "written" bit of each `M[i]`, set by `WRBLK i`, cleared by reset (`60_exceptions.md` R177). -/
  written : Bank Bool 4
  /-- The sticky mark of a refused transaction, with the reason, cleared only by reset (`60_exceptions.md`
  R173). `step` reads it and `markedStep` (`Machine/Run.lean`) sets it. -/
  refused : Option RefusalReason
  /-- The events that have not taken effect yet, oldest first: one total order of host transactions, engine
  turns and resets (`20_memory.md` R52). -/
  pending : List Event
  /-- The words read transactions have returned to the host (`30_encoding.md` R60, `rdata`), oldest first. -/
  returned : List Word
  /-- How many free values have been drawn. The model's own field (log entry 2). -/
  draws : Nat
  deriving DecidableEq, Repr

/-- The state after reset (`10_state.md` R36): `H` is `IV`, the sequencer is `(IDLE, 0)`, no block word is
written, the mark is clear. `M`, `W` and `a..h` are "unspecified" there and hold 0 here (log entry 1); nothing
is pending and nothing has been returned. -/
def State.reset : State where
  H := IV
  M := Bank.fill 0
  W := Bank.fill 0
  reg := ⟨0, 0, 0, 0, 0, 0, 0, 0⟩
  phase := .idle
  t := 0
  written := Bank.fill false
  refused := none
  pending := []
  returned := []
  draws := 0

end Sys2Proof.Machine
end

