-- ==== Sys2Proof/Machine/Flags.lean ====
section
/-!
DEFINITION. The one status flag.

`10_state.md` R29: "The engine has exactly one status flag, `READY = (phase = IDLE)`"; it is a function of
`phase`, and there are no arithmetic flags.
-/

namespace Sys2Proof.Machine

/-- `READY` (`10_state.md` R29). -/
def State.ready (s : State) : Bool := decide (s.phase = .idle)

/-- `STATUS` as read: `READY` in bit 0, bits 31:1 zero (`10_state.md` R31). -/
def State.statusWord (s : State) : Word := if s.ready then 0x00000001#32 else 0x00000000#32

/-- Every `M[i]` has been written since reset (`60_exceptions.md` R177). -/
def State.allWritten (s : State) : Bool := decide (s.written = Bank.fill true)

end Sys2Proof.Machine
end

