-- ==== Sys2Proof/Machine/WordFn.lean ====
section
/-!
DEFINITION. The word functions: the combinational units of `40_word_functions.md`.

Pure, total, no flag, no state. The names are `92_eei_decisions.md` D23's.
-/

namespace Sys2Proof.Machine

/-- `ADD32(x, y)`: the word `(x + y) mod 2^32`, the carry out of bit 31 discarded (R80). -/
def add32 (x y : Word) : Word := x + y

/-- `ROTR(x, n)`: bit `j` of the result is bit `(j + n) mod 32` of `x` (R81). For the amounts the engine never
uses, `n mod 32` is taken, as R81 advises. -/
def rotr (x : Word) (n : Nat) : Word := x.rotateRight n

/-- `SHR(x, n)`: the logical right shift `floor(x / 2^n)` (R82). -/
def shr (x : Word) (n : Nat) : Word := x >>> n

/-- `SSIG0`, the source's `σ0` (R84): two rotations and a shift. -/
def ssig0 (x : Word) : Word := rotr x 7 ^^^ rotr x 18 ^^^ shr x 3

/-- `SSIG1`, the source's `σ1` (R85): two rotations and a shift. -/
def ssig1 (x : Word) : Word := rotr x 17 ^^^ rotr x 19 ^^^ shr x 10

/-- `BSIG0`, the source's `S0` (R86): three rotations. -/
def bsig0 (x : Word) : Word := rotr x 2 ^^^ rotr x 13 ^^^ rotr x 22

/-- `BSIG1`, the source's `S1` (R87): three rotations. -/
def bsig1 (x : Word) : Word := rotr x 6 ^^^ rotr x 11 ^^^ rotr x 25

/-- `CH`, "choose" (R88): where `x` has a 1 the result bit is `y`'s, where it has a 0 it is `z`'s. -/
def ch (x y z : Word) : Word := (x &&& y) ^^^ (~~~x &&& z)

/-- `MAJ`, "majority" (R89): 1 exactly where at least two of the three operands have a 1. -/
def maj (x y z : Word) : Word := (x &&& y) ^^^ (x &&& z) ^^^ (y &&& z)

/-! ### Byte order (`20_memory.md` R45: big-endian) -/

/-- The word of four bytes, the first in the most significant place. -/
def packWord (b0 b1 b2 b3 : Byte) : Word := b0 ++ b1 ++ b2 ++ b3

/-- Byte `k` of a word, `w[31 - 8k : 24 - 8k]`, so byte 0 is the most significant. -/
def wordByte (w : Word) (k : BitVec 2) : Byte := w.extractLsb' (24 - 8 * k.toNat) 8

end Sys2Proof.Machine
end

