-- ==== Sys2Proof/Machine/Operands.lean ====
section
/-!
DEFINITION. Where the operands of commands and micro-operations come from.

The index of a command comes from its encoding (`30_encoding.md` R63) and that of a micro-operation from `t`
alone (`20_memory.md` R41), so every index is in range by its type.
-/

namespace Sys2Proof.Machine

/-- The word `DIGESTi` gives a read: `H[i]` when `READY = 1`, an unspecified word when `READY = 0`
(`43_commands.md` R137, `60_exceptions.md` R176). -/
def State.digestWord (s : State) (i : BitVec 3) : Word :=
  if s.ready then s.H.get i else Config.freeWord s.draws

/-- The word `LOADW` takes from `M[i]`: the block word, or a free value for a word nothing has written
(`41_schedule.md` R100: "the step has no specified result"; unreachable, log entry 3). -/
def State.loadWord (s : State) (i : BitVec 4) : Word :=
  if s.written.get i then s.M.get i else Config.freeWord (s.draws + i.toNat)

/-- The working registers from the eight hash words, `a` from `H[0]` to `h` from `H[7]` (`42_compression.md`
R110). -/
def workingOf (h : Bank Word 3) : Working :=
  ⟨h.get 0, h.get 1, h.get 2, h.get 3, h.get 4, h.get 5, h.get 6, h.get 7⟩

/-- Byte `j` of a block, `B[4i + k] = M[i][31 - 8k : 24 - 8k]` (`20_memory.md` R45): the block byte space. -/
def blockByte (m : Bank Word 4) (j : BitVec 6) : Byte :=
  wordByte (m.get (j.extractLsb' 2 4)) (j.extractLsb' 0 2)

/-- The block of 64 bytes, `M[i] = {B[4i], B[4i+1], B[4i+2], B[4i+3]}` (`20_memory.md` R45). -/
def blockOfBytes (b : BitVec 6 → Byte) : Bank Word 4 :=
  Bank.build fun i => packWord (b (i ++ 0#2)) (b (i ++ 1#2)) (b (i ++ 2#2)) (b (i ++ 3#2))

end Sys2Proof.Machine
end

