-- ==== Sys2Proof/Machine/Ops.lean ====
section
/-!
DEFINITION. The shared operations: every read and every write of the state goes through one of them.

There is no exception to take and none to return from (`60_exceptions.md` R170, R180, R181); the one event that
changes the machine's course from outside is `RESET`, `State.applyReset` below.
-/

namespace Sys2Proof.Machine

/-- What one step answers. -/
abbrev Result := Host.Outcome State Fault Refusal

/-- `refuse(reason)` of the spec's pseudocode (`00_scope.md` R11: "`refuse(reason)` marks a transaction to which the
spec assigns no behaviour"). Its only callers are the checks of `60_exceptions.md` R174's rows. -/
abbrev refuse (reason : RefusalReason) : Result := .refused reason.refusal

/-- `(phase, t) <- (p, n)`: how the sequencer moves (`00_scope.md` R11). -/
def State.goto (s : State) (p : Phase) (n : BitVec 6) : State := { s with phase := p, t := n }

/-- The step of a loop on `t` (`10_state.md` R28): `(p, t+1)` if `t < 63`, else `(q, 0)`. -/
def State.loopOr (s : State) (p q : Phase) (t : BitVec 6) : State :=
  if t < 63#6 then s.goto p (t + 1#6) else s.goto q 0#6

/-- `H[i] <- IV[i]` for all eight words (`43_commands.md` R130). -/
def State.loadIV (s : State) : State := { s with H := IV }

/-- `M[i] <- v`, and `M[i]` counts as written (`43_commands.md` R135, `60_exceptions.md` R177). -/
def State.writeBlock (s : State) (i : BitVec 4) (v : Word) : State :=
  { s with M := s.M.put i v, written := s.written.put i true }

/-- `rdata <- v`: a read returns one word to the host and changes nothing else (`20_memory.md` R49). -/
def State.reply (s : State) (v : Word) : State := { s with returned := s.returned ++ [v] }

/-- `n` free values have been drawn. -/
def State.drew (s : State) (n : Nat) : State := { s with draws := s.draws + n }

/-- `W` replaced. -/
def State.setW (s : State) (w : Bank Word 6) : State := { s with W := w }

/-- The working registers replaced, all eight at once (`42_compression.md` R111). -/
def State.setReg (s : State) (r : Working) : State := { s with reg := r }

/-- `H` replaced, all eight words at once (`42_compression.md` R112). -/
def State.setH (s : State) (h : Bank Word 3) : State := { s with H := h }

/-- A write command's precondition: with `READY = 0` it is refused, `X6` (`60_exceptions.md` R175). -/
def State.whenReady (s : State) (next : Result) : Result :=
  if s.ready then next else refuse .writeWhileBusy

/-- `START`'s and `INITSTART`'s second precondition: some `M[i]` unwritten is refused, `X7` (`60_exceptions.md`
R177). -/
def State.whenBlockWritten (s : State) (next : Result) : Result :=
  if s.allWritten then next else refuse .startUnwritten

/-- `RDBLK i`'s precondition: `M[i]` unwritten is refused, `X8` (`60_exceptions.md` R177). -/
def State.whenWordWritten (s : State) (i : BitVec 4) (next : Result) : Result :=
  if s.written.get i then next else refuse .readUnwritten

/-- `RESET` (`70_reset_and_hazards.md` R190): the engine's state and the mark are as after reset, whatever was
going on. The host's side of the interface is not the engine's and is kept: the events still to come, the words
already returned, and the model's count of free values. -/
def State.applyReset (s : State) : State :=
  { State.reset with pending := s.pending, returned := s.returned, draws := s.draws }

end Sys2Proof.Machine
end

