-- ==== Sys2Proof/Machine/Command.lean ====
section
/-!
DEFINITION. The meanings of the eight host commands (`43_commands.md`).

R134's table gives each its precondition: while `READY = 0` every write is refused and reads go on.
-/

namespace Sys2Proof.Machine

/-- `NOPC` (R133): no state changes, no flag, no exception. -/
def execNopc (s : State) : Result := s.whenReady (.next s)

/-- `INIT` (R130): `H <- IV`. -/
def execInit (s : State) : Result := s.whenReady (.next s.loadIV)

/-- `START` (R131): `(phase, t) <- (LOAD, 0)`. The 115 micro-operations that follow are the engine's. -/
def execStart (s : State) : Result :=
  s.whenReady (s.whenBlockWritten (.next (s.goto .load 0#6)))

/-- `INITSTART` (R132): `H <- IV` and `(phase, t) <- (LOAD, 0)`. -/
def execInitstart (s : State) : Result :=
  s.whenReady (s.whenBlockWritten (.next (s.loadIV.goto .load 0#6)))

/-- `WRBLK i, v` (R135): `M[i] <- v`. -/
def execWrblk (i : BitVec 4) (v : Word) (s : State) : Result :=
  s.whenReady (.next (s.writeBlock i v))

/-- `RDBLK i` (R136): `rdata <- M[i]`, whatever `READY` is. -/
def execRdblk (i : BitVec 4) (s : State) : Result :=
  s.whenWordWritten i (.next (s.reply (s.M.get i)))

/-- `RDH i` (R137): `rdata <- H[i]` when `READY = 1`; an unspecified word, drawn afresh, when `READY = 0`. -/
def execRdh (i : BitVec 3) (s : State) : Result :=
  .next ((s.reply (s.digestWord i)).drew (if s.ready then 0 else 1))

/-- `RDST` (R138): `rdata <- STATUS`. -/
def execRdst (s : State) : Result := .next (s.reply s.statusWord)

end Sys2Proof.Machine
end

