-- ==== Sys2Proof/Machine/Schedule.lean ====
section
/-!
DEFINITION. The message schedule expander (`41_schedule.md`): the micro-operations `LOADW` and `EXPAND`, and the
expander as a function, `SCHED`.
-/

namespace Sys2Proof.Machine

/-- The schedule with `W[i] <- m(i)` for `i` in 0..15 and the other words kept (R100). -/
def loadSchedule (m : BitVec 4 → Word) (w : Bank Word 6) : Bank Word 6 :=
  Bank.build fun t => if t < 16#6 then m (t.extractLsb' 0 4) else w.get t

/-- The sum of `EXPAND`: `W[t-16] + SSIG0(W[t-15]) + W[t-7] + SSIG1(W[t-2])` (R101), in the source's order
(`42_compression.md` R117). For `16 <= t <= 63` no index wraps. -/
def scheduleWord (w : Bank Word 6) (t : BitVec 6) : Word :=
  add32 (add32 (add32 (w.get (t - 16#6)) (ssig0 (w.get (t - 15#6)))) (w.get (t - 7#6)))
    (ssig1 (w.get (t - 2#6)))

/-- `LOADW` (R100): load the block into the first 16 schedule words. -/
def execLoadw (s : State) : Result :=
  .next (((s.setW (loadSchedule s.loadWord s.W)).drew (if s.allWritten then 0 else 16)).goto .expand 16#6)

/-- `EXPAND[t]` (R101): compute one more schedule word. -/
def execExpand (t : BitVec 6) (s : State) : Result :=
  if 16#6 ≤ t then
    .next ((s.setW (s.W.put t (scheduleWord s.W t))).loopOr .expand .copy t)
  else .fault .unreachableSelector

/-- The words `16..15+n` computed in order, as `n` `EXPAND` steps do. -/
def expandFirst (w : Bank Word 6) : Nat → Bank Word 6
  | 0 => w
  | n + 1 =>
    let w' := expandFirst w n
    let t := BitVec.ofNat 6 (16 + n)
    w'.put t (scheduleWord w' t)

/-- `SCHED(m)` (R102): the 64 schedule words of a block. -/
def sched (m : Bank Word 4) : Bank Word 6 :=
  expandFirst (loadSchedule m.get (Bank.fill 0)) 48

end Sys2Proof.Machine
end

