-- ==== Sys2Proof/Machine/Compression.lean ====
section
/-!
DEFINITION. The compression rounds and the adders (`42_compression.md`): the micro-operations `COPY`, `ROUND`
and `ACCUM`, and the compression as a function, `COMPRESS`.
-/

namespace Sys2Proof.Machine

/-- `T1 = h + BSIG1(e) + CH(e, f, g) + K[t] + W[t]` (R111, R114), in the source's order (R117). -/
def roundT1 (r : Working) (k w : Word) : Word :=
  add32 (add32 (add32 (add32 r.h (bsig1 r.e)) (ch r.e r.f r.g)) k) w

/-- `T2 = BSIG0(a) + MAJ(a, b, c)` (R111, R115). -/
def roundT2 (r : Working) : Word := add32 (bsig0 r.a) (maj r.a r.b r.c)

/-- `RND`: the register update of R111, every right-hand side read before the step. -/
def rnd (r : Working) (k w : Word) : Working where
  h := r.g
  g := r.f
  f := r.e
  e := add32 r.d (roundT1 r k w)
  d := r.c
  c := r.b
  b := r.a
  a := add32 (roundT1 r k w) (roundT2 r)

/-- `H[i] + reg[i]` for each of the eight words, no carry between words (R112, R116). -/
def accumulate (h : Bank Word 3) (r : Working) : Bank Word 3 :=
  Bank.build fun i => add32 (h.get i) (r.bank.get i)

/-- `COPY` (R110): initialise the working registers from the hash state. -/
def execCopy (s : State) : Result := .next ((s.setReg (workingOf s.H)).goto .round 0#6)

/-- `ROUND[t]` (R111): one compression round. -/
def execRound (t : BitVec 6) (s : State) : Result :=
  .next ((s.setReg (rnd s.reg (K.get t) (s.W.get t))).loopOr .round .accum t)

/-- `ACCUM` (R112): add the working registers into the hash state. -/
def execAccum (s : State) : Result := .next ((s.setH (accumulate s.H s.reg)).goto .idle 0#6)

/-- The registers after the first `n` rounds over the schedule `w`: `r_n` of R113. -/
def rounds (r : Working) (w : Bank Word 6) : Nat → Working
  | 0 => r
  | n + 1 => rnd (rounds r w n) (K.get (BitVec.ofNat 6 n)) (w.get (BitVec.ofNat 6 n))

/-- `COMPRESS(s, m)` (R113): the hash state after one block. -/
def compress (h : Bank Word 3) (m : Bank Word 4) : Bank Word 3 :=
  accumulate h (rounds (workingOf h) (sched m) 64)

end Sys2Proof.Machine
end

