-- ==== Sys2Proof/Machine/Dispatch.lean ====
section
/-!
DEFINITION. One arm per instruction: the dispatch to the meanings.
-/

namespace Sys2Proof.Machine

def exec (i : Instr) (s : State) : Host.Outcome State Fault Refusal :=
  match i with
  -- host commands
  | .nopc => Sys2Proof.Machine.execNopc s
  | .init => Sys2Proof.Machine.execInit s
  | .start => Sys2Proof.Machine.execStart s
  | .initstart => Sys2Proof.Machine.execInitstart s
  | .wrblk j v => Sys2Proof.Machine.execWrblk j v s
  | .rdblk j => Sys2Proof.Machine.execRdblk j s
  | .rdh j => Sys2Proof.Machine.execRdh j s
  | .rdst => Sys2Proof.Machine.execRdst s
  -- micro-operations
  | .loadw => Sys2Proof.Machine.execLoadw s
  | .expand t => Sys2Proof.Machine.execExpand t s
  | .copy => Sys2Proof.Machine.execCopy s
  | .round t => Sys2Proof.Machine.execRound t s
  | .accum => Sys2Proof.Machine.execAccum s

end Sys2Proof.Machine
end

