-- ==== Sys2Proof/WellFormed.lean ====
section
/-!
DEFINITION. Which instruction terms the formats can express.

The operand fields are exactly as wide as the types of `Instr` (`30_encoding.md` R63), so the only constraint
left is the one of `30_encoding.md` R67's table: `EXPAND` has `16 <= t <= 63`.
-/

namespace Sys2Proof

/-- The constraint column of `30_encoding.md` R67. -/
abbrev WellFormed : Instr → Prop
  | .nopc => True
  | .init => True
  | .start => True
  | .initstart => True
  | .wrblk _ _ => True
  | .rdblk _ => True
  | .rdh _ => True
  | .rdst => True
  | .loadw => True
  | .expand t => 16#6 ≤ t
  | .copy => True
  | .round _ => True
  | .accum => True

/-- The same check as a Bool, for tests and for programs that check an instruction before using it. -/
def wellFormed : Instr → Bool
  | .expand t => decide (16#6 ≤ t)
  | .nopc | .init | .start | .initstart | .wrblk _ _ | .rdblk _ | .rdh _ | .rdst => true
  | .loadw | .copy | .round _ | .accum => true

end Sys2Proof
end

