-- ==== Sys2Proof/Decode.lean ====
section
/-!
DEFINITION. The decoder, total on every transaction word and every selector, and after it the encoder.

Format `BUS`: `30_encoding.md` R60 to R64, R68, with the register window of `20_memory.md` R44.
Format `SEQ`: `30_encoding.md` R66, R67.
-/

namespace Sys2Proof

/-! ### The register window (`20_memory.md` R44) -/

/-- A register of the window. -/
inductive WindowReg where
  /-- `CTRL`, write only (`10_state.md` R30). -/
  | ctrl
  /-- `STATUS`, read only (R31). -/
  | status
  /-- `BLOCKi`, read and write (R32). -/
  | block (i : BitVec 4)
  /-- `DIGESTi`, read only (R33). -/
  | digest (i : BitVec 3)
  deriving DecidableEq, Repr

/-- The register at a word offset, or none where `20_memory.md` R44's table says reserved. The index of a
`BLOCKi` is `off[3:0]` and that of a `DIGESTi` is `off[2:0]` (`30_encoding.md` R63). -/
def windowReg (off : BitVec 6) : Option WindowReg :=
  if off = 0x00#6 then some .ctrl
  else if off = 0x01#6 then some .status
  else if off.extractLsb' 4 2 = 0b01#2 then some (.block (off.extractLsb' 0 4))
  else if off.extractLsb' 3 3 = 0b100#3 then some (.digest (off.extractLsb' 0 3))
  else none

/-- The word offset of a register: the same table read the other way. -/
def WindowReg.offset : WindowReg → BitVec 6
  | .ctrl => 0x00#6
  | .status => 0x01#6
  | .block i => 0b01#2 ++ i
  | .digest i => 0b100#3 ++ i

/-! ### Format BUS -/

/-- Field `rw` of a transaction word, bit 38: 1 is a write (`30_encoding.md` R60). -/
def busWrites (w : BitVec 39) : Bool := w.getLsbD 38

/-- Field `off`, bits 37:32 (R60). -/
def busOffset (w : BitVec 39) : BitVec 6 := w.extractLsb' 32 6

/-- Field `wdata`, bits 31:0 (R60). -/
def busData (w : BitVec 39) : Word := w.extractLsb' 0 32

/-- Why a transaction word is reserved: the five cases of `30_encoding.md` R68, refusal reasons `X1` to `X5`
of `60_exceptions.md` R174. -/
inductive BusReject where
  /-- (a), `X1`: an access to a reserved offset. -/
  | reservedOffset
  /-- (b), `X2`: a read of `CTRL`. -/
  | readCtrl
  /-- (c), `X3`: a write to `STATUS`. -/
  | writeStatus
  /-- (d), `X4`: a write to a `DIGESTi`. -/
  | writeDigest
  /-- (e), `X5`: a write to `CTRL` with any of `wdata[31:2]` set. -/
  | ctrlReservedBits
  deriving DecidableEq, Repr

/-- Decoding a write to `CTRL` (`30_encoding.md` R62): the four legal values are four different commands. -/
def decodeCtrl (wdata : Word) : Except BusReject Instr :=
  if wdata.extractLsb' 2 30 ≠ 0#30 then .error .ctrlReservedBits
  else if wdata.extractLsb' 0 2 = 0b00#2 then .ok .nopc
  else if wdata.extractLsb' 0 2 = 0b01#2 then .ok .init
  else if wdata.extractLsb' 0 2 = 0b10#2 then .ok .start
  else .ok .initstart

/-- The command a transaction word stands for (`30_encoding.md` R61), or why it is reserved (R68). In a read
`wdata` is ignored (R64). -/
def decodeBus (w : BitVec 39) : Except BusReject Instr :=
  match windowReg (busOffset w), busWrites w with
  | none, _ => .error .reservedOffset
  | some .ctrl, false => .error .readCtrl
  | some .ctrl, true => decodeCtrl (busData w)
  | some .status, false => .ok .rdst
  | some .status, true => .error .writeStatus
  | some (.block i), false => .ok (.rdblk i)
  | some (.block i), true => .ok (.wrblk i (busData w))
  | some (.digest i), false => .ok (.rdh i)
  | some (.digest _), true => .error .writeDigest

/-! ### Format SEQ -/

/-- The 3-bit code of a phase (`30_encoding.md` R66). -/
def Phase.code : Phase → BitVec 3
  | .idle => 0b000#3
  | .load => 0b001#3
  | .expand => 0b010#3
  | .copy => 0b011#3
  | .round => 0b100#3
  | .accum => 0b101#3

/-- The phase with a given code. The codes `110` and `111` are never reached and name no phase (R66). -/
def phaseOfCode (c : BitVec 3) : Option Phase :=
  if c = 0b000#3 then some .idle
  else if c = 0b001#3 then some .load
  else if c = 0b010#3 then some .expand
  else if c = 0b011#3 then some .copy
  else if c = 0b100#3 then some .round
  else if c = 0b101#3 then some .accum
  else none

/-- Field `phase` of a selector, bits 8:6 (R66). -/
def selPhase (x : BitVec 9) : Option Phase := phaseOfCode (x.extractLsb' 6 3)

/-- Field `t` of a selector, bits 5:0 (R66). -/
def selIndex (x : BitVec 9) : BitVec 6 := x.extractLsb' 0 6

/-- The selector `{phase, t}` (R66). -/
def selector (p : Phase) (t : BitVec 6) : BitVec 9 := p.code ++ t

/-- Why a selector names no micro-operation (`30_encoding.md` R67). -/
inductive SeqReject where
  /-- `seq = 000000000`: the engine has no micro-operation and no step. -/
  | noMicroOp
  /-- A selector outside the table: unreachable from reset. -/
  | unreachable
  deriving DecidableEq, Repr

/-- The micro-operation of a phase and an index (`30_encoding.md` R67, patterns and constraints). -/
def microOp (p : Phase) (t : BitVec 6) : Except SeqReject Instr :=
  match p with
  | .idle => if t = 0#6 then .error .noMicroOp else .error .unreachable
  | .load => if t = 0#6 then .ok .loadw else .error .unreachable
  | .expand => if 16#6 ≤ t then .ok (.expand t) else .error .unreachable
  | .copy => if t = 0#6 then .ok .copy else .error .unreachable
  | .round => .ok (.round t)
  | .accum => if t = 0#6 then .ok .accum else .error .unreachable

/-- The micro-operation a selector stands for. -/
def decodeSeq (x : BitVec 9) : Except SeqReject Instr :=
  match selPhase x with
  | none => .error .unreachable
  | some p => microOp p (selIndex x)

/-! ### Both formats -/

/-- Why an encoded word is no instruction. -/
inductive Reject where
  | bus (r : BusReject)
  | seq (r : SeqReject)
  deriving DecidableEq, Repr

/-- The decoder: every transaction word and every selector is an instruction or is rejected by name. -/
def decode : Encoded → Except Reject Instr
  | .bus w => (decodeBus w).mapError .bus
  | .seq x => (decodeSeq x).mapError .seq

/-- A row of `spec/opcode_table.json` read as one number: `nbits` is the row's width in whole bytes, so 16 for the
9-bit selectors of format `SEQ` and 40 for the 39-bit transaction words of format `BUS`. A number that does not
fit the format's own width is no instruction. -/
def decodeTableWord (nbits w : Nat) : Option Instr :=
  if nbits ≤ 16 then
    if w < 2 ^ 9 then (decode (.seq (BitVec.ofNat 9 w))).toOption else none
  else
    if w < 2 ^ 39 then (decode (.bus (BitVec.ofNat 39 w))).toOption else none

/-! ### The encoder -/

/-- A transaction word from its three fields: `{rw, off, wdata}` (`30_encoding.md` R60). -/
def busWord (rw : Bool) (off : BitVec 6) (wdata : Word) : BitVec 39 :=
  BitVec.ofBool rw ++ off ++ wdata

/-- The encoder, from the tables of `30_encoding.md` R61 and R67. The ignored `wdata` of a read is emitted as
zero (R64). -/
def encode : Instr → Encoded
  | .nopc => .bus (busWord true 0b000000#6 0x00000000#32)
  | .init => .bus (busWord true 0b000000#6 0x00000001#32)
  | .start => .bus (busWord true 0b000000#6 0x00000002#32)
  | .initstart => .bus (busWord true 0b000000#6 0x00000003#32)
  | .wrblk i v => .bus (busWord true (0b01#2 ++ i) v)
  | .rdblk i => .bus (busWord false (0b01#2 ++ i) 0x00000000#32)
  | .rdh i => .bus (busWord false (0b100#3 ++ i) 0x00000000#32)
  | .rdst => .bus (busWord false 0b000001#6 0x00000000#32)
  | .loadw => .seq (0b001#3 ++ 0b000000#6)
  | .expand t => .seq (0b010#3 ++ t)
  | .copy => .seq (0b011#3 ++ 0b000000#6)
  | .round t => .seq (0b100#3 ++ t)
  | .accum => .seq (0b101#3 ++ 0b000000#6)

/-! ### The opcode map as match and mask -/

/-- A row of `30_encoding.md` R61's second table, or of R67's patterns read as match and mask: a word `x` selects
the row when `x and mask = match`. -/
structure OpcodeRow (n : Nat) where
  mask : BitVec n
  pattern : BitVec n
  deriving DecidableEq, Repr

/-- Whether a word selects a row (`30_encoding.md` R61). -/
def OpcodeRow.selects {n : Nat} (r : OpcodeRow n) (x : BitVec n) : Bool := x &&& r.mask == r.pattern

/-- The row of a command in the match and mask table of `30_encoding.md` R61; a micro-operation has none. -/
def busRow : Instr → Option (OpcodeRow 39)
  | .nopc => some ⟨0x7FFFFFFFFF#39, 0x4000000000#39⟩
  | .init => some ⟨0x7FFFFFFFFF#39, 0x4000000001#39⟩
  | .start => some ⟨0x7FFFFFFFFF#39, 0x4000000002#39⟩
  | .initstart => some ⟨0x7FFFFFFFFF#39, 0x4000000003#39⟩
  | .wrblk _ _ => some ⟨0x7000000000#39, 0x5000000000#39⟩
  | .rdblk _ => some ⟨0x7000000000#39, 0x1000000000#39⟩
  | .rdh _ => some ⟨0x7800000000#39, 0x2000000000#39⟩
  | .rdst => some ⟨0x7F00000000#39, 0x0100000000#39⟩
  | .loadw | .expand _ | .copy | .round _ | .accum => none

/-- The row of a micro-operation, from the patterns of `30_encoding.md` R67; a command has none. -/
def seqRow : Instr → Option (OpcodeRow 9)
  | .loadw => some ⟨0b111111111#9, 0b001000000#9⟩
  | .expand _ => some ⟨0b111000000#9, 0b010000000#9⟩
  | .copy => some ⟨0b111111111#9, 0b011000000#9⟩
  | .round _ => some ⟨0b111000000#9, 0b100000000#9⟩
  | .accum => some ⟨0b111111111#9, 0b101000000#9⟩
  | .nopc | .init | .start | .initstart | .wrblk _ _ | .rdblk _ | .rdh _ | .rdst => none

end Sys2Proof
end

