-- ==== Sys2Proof/Machine/Fetch.lean ====
section
/-!
DEFINITION. What the machine does next: which event takes effect, and the instruction it stands for.

The machine fetches no code (`10_state.md` R28, R191). A host command comes from a pending transaction word, a
micro-operation from the sequencer's selector `(phase, t)` (`30_encoding.md` R66). The order in which they take
effect is the order of `State.pending`; when nothing is pending the engine performs the micro-operations it has
left, so it is never starved (`20_memory.md` R52, `70_reset_and_hazards.md` R208; log entry 4).
-/

namespace Sys2Proof.Machine

/-- What the next step is. -/
inductive Move where
  /-- `RESET`. -/
  | reset
  /-- A host command or a micro-operation. -/
  | run (i : Instr)
  /-- The engine's turn while `phase` is `IDLE`: it has no micro-operation and no step. -/
  | idle
  /-- A transaction the spec assigns no behaviour, or anything but a reset once the run is marked. -/
  | refuse (r : RefusalReason)
  /-- `(phase, t)` is outside `30_encoding.md` R67's table. -/
  | unreachable
  deriving DecidableEq, Repr

/-- The refusal reason of a reserved transaction word (`60_exceptions.md` R174, `X1` to `X5`). -/
def refusalOf : BusReject → RefusalReason
  | .reservedOffset => .reservedOffset
  | .readCtrl => .readCtrl
  | .writeStatus => .writeStatus
  | .writeDigest => .writeDigest
  | .ctrlReservedBits => .ctrlReservedBits

/-- The move a transaction word asks for. -/
def busMove (w : BitVec 39) : Move :=
  match decode (.bus w) with
  | .ok i => .run i
  | .error (.bus r) => .refuse (refusalOf r)
  | .error (.seq _) => .unreachable

/-- The move a selector asks for. -/
def seqMove (x : BitVec 9) : Move :=
  match decode (.seq x) with
  | .ok i => .run i
  | .error (.seq .noMicroOp) => .idle
  | .error _ => .unreachable

/-- The sequencer's selector (`30_encoding.md` R66). -/
def State.selector (s : State) : BitVec 9 := Sys2Proof.selector s.phase s.t

/-- A marked run does nothing but wait for reset (`60_exceptions.md` R173). -/
def State.unlessMarked (s : State) (m : Move) : Move :=
  match s.refused with
  | some r => .refuse r
  | none => m

/-- What the next step is: the oldest pending event, or the engine's turn when nothing is pending. Reset wins
over everything (`60_exceptions.md` R179(b)). -/
def State.nextMove (s : State) : Move :=
  match s.pending with
  | .reset :: _ => .reset
  | .bus w :: _ => s.unlessMarked (busMove w)
  | .engine :: _ => s.unlessMarked (seqMove s.selector)
  | [] => s.unlessMarked (seqMove s.selector)

/-- The state in which the move takes effect: the oldest pending event is no longer pending. -/
def State.afterFetch (s : State) : State := { s with pending := s.pending.tail }

/-- The state with a transaction word as the oldest pending event, in an unmarked run. -/
def State.offerBus (s : State) (w : BitVec 39) : State :=
  { s with pending := .bus w :: s.pending, refused := none }

/-- The state whose sequencer holds a selector and whose engine has the next turn, in an unmarked run. The codes
`110` and `111` name no phase (`30_encoding.md` R66), and a selector with one changes nothing. -/
def State.offerSeq (s : State) (x : BitVec 9) : State :=
  match selPhase x with
  | some p => { s with phase := p, t := selIndex x, pending := .engine :: s.pending, refused := none }
  | none => s

end Sys2Proof.Machine
end

