-- ==== Sys2Proof/Machine/Step.lean ====
section
/-!
DEFINITION. One step of the machine.
-/

namespace Sys2Proof.Machine

/-- One step: one event takes effect, atomically (`20_memory.md` R48). -/
def step (s : State) : Host.Outcome State Fault Refusal :=
  match s.nextMove with
  | .reset => .next s.afterFetch.applyReset
  | .run i => exec i s.afterFetch
  | .idle => .next s.afterFetch
  | .refuse r => refuse r
  | .unreachable => .fault .unreachableSelector

/-- The state whose next step runs the instruction of an opcode-table row whose bits are `w` (numbered as
`decodeTableWord` numbers them). A transaction word becomes the oldest pending event; a selector is put in the
sequencer and the engine is given the turn. In both cases the run is taken as unmarked, since a marked run
performs nothing (log entry 5 says how a program comes to run). -/
def State.withFetchWord (s : State) (nbits w : Nat) : State :=
  if nbits ≤ 16 then s.offerSeq (BitVec.ofNat 9 w) else s.offerBus (BitVec.ofNat 39 w)

end Sys2Proof.Machine
end

