-- ==== Sys2Proof/Machine/HostFunctions.lean ====
section
/-!
DEFINITION. What the host does around the engine (`44_host_contract.md`): `PAD`, `BLOCKS`, `ENCODE`, `SHA256`.

Pure functions: no engine state, no encoding, no command. The engine does none of them (`00_scope.md` R4).
-/

namespace Sys2Proof.Machine

/-- `z = (55 - L) mod 64`, the number of zero bytes of the padding (R150). -/
def padZeros (len : Nat) : Nat := ((55 - (len : Int)) % 64).toNat

/-- `bitlen = (8 * L) mod 2^64` (R151). -/
def bitLength (len : Nat) : BitVec 64 := BitVec.ofNat 64 (8 * len)

/-- `BE64(n)`: eight bytes, the most significant first (R150). -/
def be64 (n : BitVec 64) : List Byte :=
  [n.extractLsb' 56 8, n.extractLsb' 48 8, n.extractLsb' 40 8, n.extractLsb' 32 8,
    n.extractLsb' 24 8, n.extractLsb' 16 8, n.extractLsb' 8 8, n.extractLsb' 0 8]

/-- `PAD(msg)` (R150). -/
def pad (msg : List Byte) : List Byte :=
  msg ++ [0x80#8] ++ List.replicate (padZeros msg.length) 0x00#8 ++ be64 (bitLength msg.length)

/-- Block `k` of a byte sequence, its 16 big-endian words (R152). -/
def blockAt (p : List Byte) (k : Nat) : Bank Word 4 :=
  blockOfBytes fun j => p.getD (64 * k + j.toNat) 0

/-- `BLOCKS(p)`: the blocks in increasing order (R152), for a `p` whose length is a multiple of 64. -/
def blocks (p : List Byte) : List (Bank Word 4) :=
  (List.range (p.length / 64)).map (blockAt p)

/-- `SHA256_WORDS(msg)`: the hash state after the last block, from `IV` (R155). -/
def sha256Words (msg : List Byte) : Bank Word 3 :=
  (blocks (pad msg)).foldl compress IV

/-- `HEX(d)`: the character of `"0123456789abcdef"` with index `d` (R154). -/
def hexDigit (d : BitVec 4) : Char :=
  ['0', '1', '2', '3', '4', '5', '6', '7', '8', '9', 'a', 'b', 'c', 'd', 'e', 'f'].getD d.toNat '0'

/-- The eight hexadecimal characters of a word, the most significant first. -/
def hexWord (w : Word) : List Char :=
  [7, 6, 5, 4, 3, 2, 1, 0].map fun j => hexDigit (w.extractLsb' (4 * j) 4)

/-- `ENCODE(s)` as characters (R154): the words in the order `H[0]..H[7]`. -/
def encodeChars (s : Bank Word 3) : List Char :=
  s.cells.toList.flatMap hexWord

/-- `ENCODE(s)` (R154). -/
def encodeDigest (s : Bank Word 3) : String := String.ofList (encodeChars s)

/-- The digest as 32 bytes, `s[0][31:24], s[0][23:16], ..., s[7][7:0]` (R154). -/
def digestBytes (s : Bank Word 3) : List Byte :=
  s.cells.toList.flatMap fun w => [wordByte w 0, wordByte w 1, wordByte w 2, wordByte w 3]

/-- `SHA256(msg)` (R155). -/
def sha256 (msg : List Byte) : String := encodeDigest (sha256Words msg)

end Sys2Proof.Machine
end

