-- ==== Sys2Proof/Machine/Run.lean ====
section
/-!
DEFINITION. Runs with the sticky mark of a refused transaction.

`60_exceptions.md` R173: a model "sets a sticky mark `refused` on the run (never cleared, not even by a later
`INIT`; cleared only by reset), and every claim about the engine takes 'no transaction was refused' as a
premise". A refused step has no next state (`93_implementation_defined.md` part 1), so the mark belongs to the
run, not to the step: `markedStep` sets it.
-/

namespace Sys2Proof.Machine

/-- One step of a marked run. A refused event is used up and leaves the mark; nothing else of the state it leaves
means anything until a reset, since the spec says nothing of it. A fault leaves the run where it is. -/
def markedStep (s : State) : State :=
  match step s with
  | .next s' => s'
  | .refused r => { s.afterFetch with refused := r.reason }
  | .fault _ => s

/-- `n` steps of a marked run. -/
def markedRun : Nat → State → State
  | 0, s => s
  | n + 1, s => markedRun n (markedStep s)

/-- `n` steps of a run that stops at a refusal or a fault. -/
def run : Nat → State → Result
  | 0, s => .next s
  | n + 1, s =>
    match step s with
    | .next s' => run n s'
    | .fault r => .fault r
    | .refused r => .refused r

/-- The micro-operations a compression has left at a selector (`10_state.md` R28: `1 + 48 + 1 + 64 + 1 = 115`
from `(LOAD, 0)`). -/
def stepsLeft (p : Phase) (t : BitVec 6) : Nat :=
  match p with
  | .idle => 0
  | .load => 115
  | .expand => 130 - t.toNat
  | .copy => 66
  | .round => 65 - t.toNat
  | .accum => 1

/-- The transition table of `10_state.md` R28, for the engine's own steps. -/
def nextSelector (p : Phase) (t : BitVec 6) : Phase × BitVec 6 :=
  match p with
  | .idle => (.idle, 0#6)
  | .load => (.expand, 16#6)
  | .expand => if t < 63#6 then (.expand, t + 1#6) else (.copy, 0#6)
  | .copy => (.round, 0#6)
  | .round => if t < 63#6 then (.round, t + 1#6) else (.accum, 0#6)
  | .accum => (.idle, 0#6)

end Sys2Proof.Machine
end

