-- ==== Sys2Proof/Machine/HostCommands.lean ====
section
/-!
DEFINITION. What the host sends: bus accesses, pseudo-commands, the command sequence of a whole digest, and when a
run of the machine performs one of them.
-/

namespace Sys2Proof.Machine

/-! ### Kinds of instruction (`00_scope.md` R12: what the host does, what the engine does) -/

/-- A read command of the host. -/
def isRead : Instr → Bool
  | .rdblk _ | .rdh _ | .rdst => true
  | .nopc | .init | .start | .initstart | .wrblk _ _ => false
  | .loadw | .expand _ | .copy | .round _ | .accum => false

/-- A write command of the host (`43_commands.md` R134). -/
def isWrite : Instr → Bool
  | .nopc | .init | .start | .initstart | .wrblk _ _ => true
  | .rdblk _ | .rdh _ | .rdst => false
  | .loadw | .expand _ | .copy | .round _ | .accum => false

/-- A micro-operation of the engine. -/
def isMicroOp : Instr → Bool
  | .loadw | .expand _ | .copy | .round _ | .accum => true
  | .nopc | .init | .start | .initstart | .wrblk _ _ | .rdblk _ | .rdh _ | .rdst => false

/-! ### Bus accesses -/

/-- `BusRead(off)` as an event (`20_memory.md` R43); `wdata` is ignored and sent as zero. -/
def busRead (off : BitVec 6) : Event := .bus (busWord false off 0#32)

/-- `BusWrite(off, v)` as an event (`20_memory.md` R43). -/
def busWrite (off : BitVec 6) (v : Word) : Event := .bus (busWord true off v)

/-- Where a byte-addressed host sees word offset `k`: `BASE + 4k` (`20_memory.md` R44). -/
def hostByteAddress (off : BitVec 6) : Nat := Config.base + 4 * off.toNat

/-- An instruction as the event that makes it happen: a command is sent, a micro-operation is the engine's turn. -/
def eventOf (i : Instr) : Event :=
  match encode i with
  | .bus w => .bus w
  | .seq _ => .engine

/-! ### Pseudo-commands (`30_encoding.md` R71) -/

/-- One action of the host: a command, or the `WAIT` that it must see through before it goes on. -/
inductive HostAction where
  /-- One command. -/
  | issue (i : Instr)
  /-- `WAIT`: "repeat `RDST` until the word returned has bit 0 = 1". Which words are returned is the engine's to say,
  so how many `RDST` this is depends on the run: `afterCommand` below. -/
  | wait
  deriving DecidableEq, Repr

/-- Commands one after another. -/
def commands (l : List Instr) : List HostAction := l.map .issue

/-- The block words with the indices of `order` written in that order: "The 16 `WRBLK` of `LDBLK` may be issued in any
order, and a `WRBLK` may be omitted when `M[i]` already holds the value wanted". -/
def writeWords (order : List (BitVec 4)) (w : Bank Word 4) : List Instr := order.map fun i => .wrblk i (w.get i)

/-- `LDBLK w0, …, w15`: sixteen `WRBLK`, in increasing index. -/
def ldblk (w : Bank Word 4) : List Instr := writeWords ((List.finRange (2 ^ 4)).map BitVec.ofFin) w

/-- `LDBYTES b0, …, b63`: `LDBLK` of the big-endian words. -/
def ldbytes (b : BitVec 6 → Byte) : List Instr := ldblk (blockOfBytes b)

/-- `HASHBLK w0, …, w15`: `LDBLK`, `START`, `WAIT`. -/
def hashblk (w : Bank Word 4) : List HostAction := commands (ldblk w) ++ [.issue .start, .wait]

/-- `FIRSTBLK w0, …, w15`: `LDBLK`, `INITSTART`, `WAIT`. -/
def firstblk (w : Bank Word 4) : List HostAction := commands (ldblk w) ++ [.issue .initstart, .wait]

/-- `RDDIGEST`: `RDH 0`, …, `RDH 7`. -/
def rddigest : List Instr := (List.finRange (2 ^ 3)).map fun i => .rdh (BitVec.ofFin i)

/-! ### The command sequence of a digest (`44_host_contract.md` R156) -/

/-- The blocks of a message in order, each by `HASHBLK`, and `RDDIGEST`: R156's sequence after its `INIT`, and the
whole of it right after reset, where "the `INIT` may be omitted". -/
def blocksProgram (msg : List Byte) : List HostAction :=
  (blocks (pad msg)).flatMap hashblk ++ commands rddigest

/-- The sequence that computes `SHA256(msg)`: `INIT`, the blocks in order, `RDDIGEST`. -/
def digestProgram (msg : List Byte) : List HostAction := .issue .init :: blocksProgram msg

/-- The same with "`INIT` followed by the first `START`" replaced by `INITSTART`. -/
def digestProgramFused (msg : List Byte) : List HostAction :=
  match blocks (pad msg) with
  | [] => commands rddigest
  | m :: ms => firstblk m ++ ms.flatMap hashblk ++ commands rddigest

/-! ### When a run performs a program -/

/-- The word that the step from `s` to `u` returned to the host, if it returned one (`30_encoding.md` R60). -/
def answer (s u : State) : Option Word := (u.returned.drop s.returned.length).head?

/-- The step from `s` to `u` returned a word with bit 0 = 1: what ends a `WAIT` (`30_encoding.md` R71). -/
def saysReady (s u : State) : Bool := (answer s u).any (·.getLsbD 0)

/-- What is left of a program once its host has issued the command `i`, and the engine has answered by going from `s`
to `u`; none when the program has no such command here. A `WAIT` takes every `RDST`, and is over when the word returned
has bit 0 = 1. -/
def afterCommand (p : List HostAction) (i : Instr) (s u : State) : Option (List HostAction) :=
  match p with
  | [] => none
  | .issue j :: rest => if i = j then some rest else none
  | .wait :: rest => if i = .rdst then some (if saysReady s u then rest else p) else none

/-- What is left of a program after the next step of a run. The engine may have its turn between any two commands
(`20_memory.md` R52(b)); a reset is none of the host's commands. -/
def afterStep (p : List HostAction) (s : State) : Option (List HostAction) :=
  match s.pending with
  | .bus w :: _ =>
    match decode (.bus w) with
    | .ok i => afterCommand p i s (markedStep s)
    | .error _ => none
  | .reset :: _ => none
  | .engine :: _ => some p
  | [] => some p

/-- What is left of a program after `n` steps of a run. -/
def afterSteps : Nat → List HostAction → State → Option (List HostAction)
  | 0, p, _ => some p
  | n + 1, p, s => (afterStep p s).bind fun q => afterSteps n q (markedStep s)

/-- The first `n` steps of the run from `s` perform the whole of a program: the host issues its commands in order and
no others, and sees each `WAIT` through. -/
def performs (p : List HostAction) (n : Nat) (s : State) : Bool := decide (afterSteps n p s = some [])

/-- What may come between `START` and the end of a compression without disturbing it: reads and engine turns, in any
order (`42_compression.md` R113: "and then nothing but reads"). -/
def isWaiting : Event → Bool
  | .engine => true
  | .bus w =>
    match decode (.bus w) with
    | .ok i => isRead i
    | .error _ => false
  | .reset => false

/-! ### Textual form of a command (`30_encoding.md` R70) -/

/-- A word as `0x` and 8 hexadecimal digits. -/
def wordText (v : Word) : String := "0x" ++ String.ofList (hexWord v)

/-- A command or a micro-operation as the spec writes it. It binds no tool. -/
def instrText : Instr → String
  | .nopc => "NOPC"
  | .init => "INIT"
  | .start => "START"
  | .initstart => "INITSTART"
  | .wrblk i v => "WRBLK " ++ toString i.toNat ++ ", " ++ wordText v
  | .rdblk i => "RDBLK " ++ toString i.toNat
  | .rdh i => "RDH " ++ toString i.toNat
  | .rdst => "RDST"
  | .loadw => "LOADW"
  | .expand t => "EXPAND[" ++ toString t.toNat ++ "]"
  | .copy => "COPY"
  | .round t => "ROUND[" ++ toString t.toNat ++ "]"
  | .accum => "ACCUM"

end Sys2Proof.Machine
end

