-- ==== Sys2Proof/Safety.lean ====
section
/-!
DEFINITION. What claims about the machine are stated in: legal selectors, the invariant of a compression, and
what an observer of the register window cannot tell apart.
-/

namespace Sys2Proof.Machine

/-- The pair `(phase, t)` is one of `10_state.md` R28's table. -/
def legalSelector (p : Phase) (t : BitVec 6) : Prop :=
  match p with
  | .idle => t = 0#6
  | .load => t = 0#6
  | .expand => 16#6 ≤ t
  | .copy => t = 0#6
  | .round => True
  | .accum => t = 0#6

/-- How many words of `W`, from `W[0]` up, the running compression has computed. -/
def scheduleDone (p : Phase) (t : BitVec 6) : Nat :=
  match p with
  | .idle => 0
  | .load => 0
  | .expand => t.toNat
  | .copy => 64
  | .round => 64
  | .accum => 64

/-- How many rounds the working registers have been through, or none where no compression is in its rounds. -/
def roundsDone (p : Phase) (t : BitVec 6) : Option Nat :=
  match p with
  | .idle => none
  | .load => none
  | .expand => none
  | .copy => none
  | .round => some t.toNat
  | .accum => some 64

/-- The invariant of a compression: the selector is legal (`10_state.md` R28), while the engine is busy every
block word is written (`60_exceptions.md` R177), the schedule words computed so far are those of `SCHED(M)`
(`41_schedule.md` R102), and the working registers are `r_n` after `n` rounds from `H` (`42_compression.md`
R113). -/
structure State.Inv (s : State) : Prop where
  legal : legalSelector s.phase s.t
  written : s.phase ≠ .idle → ∀ i, s.written.get i = true
  schedule : ∀ j : BitVec 6, j.toNat < scheduleDone s.phase s.t → s.W.get j = (sched s.M).get j
  registers : ∀ n, roundsDone s.phase s.t = some n → s.reg = rounds (workingOf s.H) (sched s.M) n

/-- Two states that differ at most in what is dead: schedule words not yet computed in the running compression,
and working registers outside its rounds (`41_schedule.md` R103, `10_state.md` R34). -/
structure State.SameLive (s u : State) : Prop where
  H : s.H = u.H
  M : s.M = u.M
  phase : s.phase = u.phase
  t : s.t = u.t
  written : s.written = u.written
  refused : s.refused = u.refused
  pending : s.pending = u.pending
  returned : s.returned = u.returned
  draws : s.draws = u.draws
  W : ∀ j : BitVec 6, j.toNat < scheduleDone s.phase s.t → s.W.get j = u.W.get j
  reg : roundsDone s.phase s.t ≠ none → s.reg = u.reg

/-- The refusal reason of a transaction word in any state: rows `X1` to `X5` of `60_exceptions.md` R174, in order,
by the offsets and bits that `30_encoding.md` R68 gives. -/
def reservedReason (w : BitVec 39) : Option RefusalReason :=
  let off := (busOffset w).toNat
  if (0x02 ≤ off ∧ off ≤ 0x0F) ∨ (0x28 ≤ off ∧ off ≤ 0x3F) then some .reservedOffset
  else if busWrites w = false ∧ off = 0x00 then some .readCtrl
  else if busWrites w = true ∧ off = 0x01 then some .writeStatus
  else if busWrites w = true ∧ 0x20 ≤ off ∧ off ≤ 0x27 then some .writeDigest
  else if busWrites w = true ∧ off = 0x00 ∧ 4 ≤ (busData w).toNat then some .ctrlReservedBits
  else none

/-- The refusal reason of a transaction word in a state: all eight rows of `60_exceptions.md` R174, in order. -/
def refusalReason (s : State) (w : BitVec 39) : Option RefusalReason :=
  let off := (busOffset w).toNat
  match reservedReason w with
  | some r => some r
  | none =>
    if busWrites w = true ∧ s.phase ≠ .idle then some .writeWhileBusy
    else if busWrites w = true ∧ off = 0x00 ∧ 2 ≤ (busData w).toNat ∧ ∃ i, s.written.get i = false then
      some .startUnwritten
    else if busWrites w = false ∧ 0x10 ≤ off ∧ off ≤ 0x1F ∧
        s.written.get (BitVec.ofNat 4 (off - 0x10)) = false then some .readUnwritten
    else none

end Sys2Proof.Machine
end

