-- ==== Sys2Proof/Certificates/Slice0/Obligations.lean ====
section
/-!
DEFINITION. The statements for the provers.

Each is one `def Obligations.<Name> : Prop`; its docstring names the rules of the spec it formalises. Where a
statement rests on a choice of the model it names the log entry.
-/

open Sys2Proof Sys2Proof.Machine

/-! ### Encoding -/

/-- Transaction words and selectors written out bit by bit from `30_encoding.md` R61 and R67, one per
instruction. -/
def Obligations.SpecWordsDecode : Prop :=
  decode (.bus 0b1_000000_00000000000000000000000000000000#39) = .ok .nopc ∧
  decode (.bus 0b1_000000_00000000000000000000000000000001#39) = .ok .init ∧
  decode (.bus 0b1_000000_00000000000000000000000000000010#39) = .ok .start ∧
  decode (.bus 0b1_000000_00000000000000000000000000000011#39) = .ok .initstart ∧
  decode (.bus 0b1_011111_00000000000000000000000000011000#39) = .ok (.wrblk 15 0x18) ∧
  decode (.bus 0b0_010011_00010010001101000101011001111000#39) = .ok (.rdblk 3) ∧
  decode (.bus 0b0_100111_11111111111111111111111111111111#39) = .ok (.rdh 7) ∧
  decode (.bus 0b0_000001_11011110101011011011111011101111#39) = .ok .rdst ∧
  decode (.seq 0b001_000000#9) = .ok .loadw ∧
  decode (.seq 0b010_010000#9) = .ok (.expand 16) ∧
  decode (.seq 0b011_000000#9) = .ok .copy ∧
  decode (.seq 0b100_111111#9) = .ok (.round 63) ∧
  decode (.seq 0b101_000000#9) = .ok .accum

/-- Decoding an encoded well-formed instruction gives it back, with every operand. -/
def Obligations.DecodeEncodeRoundTrip : Prop :=
  ∀ i : Instr, WellFormed i → decode (encode i) = .ok i

/-- Every word that decodes is the encoding of its instruction, but for the `wdata` that a read ignores, which the
encoder emits as zero (R64); and it decodes to a well-formed instruction. -/
def Obligations.EncodeDecodeCanonical : Prop :=
  (∀ (w : BitVec 39) (i : Instr), decode (.bus w) = .ok i →
    WellFormed i ∧ encode i = .bus (if busWrites w then w else w &&& 0x7F00000000#39)) ∧
  (∀ (x : BitVec 9) (i : Instr), decode (.seq x) = .ok i → WellFormed i ∧ encode i = .seq x)

/-- R61: the eight rows as match and mask; a word `x` selects a row when `x and mask = match`, the eight rows are all
the legal transactions, and they do not overlap. -/
def Obligations.TransactionTableDecides : Prop :=
  (busRow .nopc = some { mask := 0x7FFFFFFFFF#39, pattern := 0x4000000000#39 } ∧
    busRow .init = some { mask := 0x7FFFFFFFFF#39, pattern := 0x4000000001#39 } ∧
    busRow .start = some { mask := 0x7FFFFFFFFF#39, pattern := 0x4000000002#39 } ∧
    busRow .initstart = some { mask := 0x7FFFFFFFFF#39, pattern := 0x4000000003#39 } ∧
    (∀ i v, busRow (.wrblk i v) = some { mask := 0x7000000000#39, pattern := 0x5000000000#39 }) ∧
    (∀ i, busRow (.rdblk i) = some { mask := 0x7000000000#39, pattern := 0x1000000000#39 }) ∧
    (∀ i, busRow (.rdh i) = some { mask := 0x7800000000#39, pattern := 0x2000000000#39 }) ∧
    busRow .rdst = some { mask := 0x7F00000000#39, pattern := 0x0100000000#39 }) ∧
  (∀ (w : BitVec 39) (r : OpcodeRow 39),
    (∃ i, decode (.bus w) = .ok i ∧ busRow i = some r) ↔ (r.selects w = true ∧ ∃ i, busRow i = some r)) ∧
  (∀ (w : BitVec 39) (i : Instr), decode (.bus w) = .ok i → ∃ r, busRow i = some r ∧ r.selects w = true) ∧
  (∀ (w : BitVec 39) (i j : Instr) (r q : OpcodeRow 39), busRow i = some r → busRow j = some q →
    r.selects w = true → q.selects w = true → r = q)

/-- R63, R64: the index of `WRBLK` and `RDBLK` is `off[3:0]`, equal to `off - 0x10`; that of `RDH` is `off[2:0]`, equal
to `off - 0x20`; the data word of `WRBLK` is all of `wdata`; in a read the `wdata` field is ignored. -/
def Obligations.OperandFields : Prop :=
  (∀ w : BitVec 39,
    (∀ i v, decode (.bus w) = .ok (.wrblk i v) →
      i = w.extractLsb' 32 4 ∧ i.toNat = (w.extractLsb' 32 6).toNat - 0x10 ∧
        0x10 ≤ (w.extractLsb' 32 6).toNat ∧ v = w.extractLsb' 0 32) ∧
    (∀ i, decode (.bus w) = .ok (.rdblk i) →
      i = w.extractLsb' 32 4 ∧ i.toNat = (w.extractLsb' 32 6).toNat - 0x10 ∧
        0x10 ≤ (w.extractLsb' 32 6).toNat) ∧
    (∀ i, decode (.bus w) = .ok (.rdh i) →
      i = w.extractLsb' 32 3 ∧ i.toNat = (w.extractLsb' 32 6).toNat - 0x20 ∧
        0x20 ≤ (w.extractLsb' 32 6).toNat)) ∧
  (∀ (off : BitVec 6) (v v' : Word),
    decode (.bus (busWord false off v)) = decode (.bus (busWord false off v')))

/-- R62: a write to `CTRL` with `wdata[31:2]` not zero is no command; the values 0, 1, 2, 3 are four different
commands, and value 3 means `INIT`, then `START`, in that order. -/
def Obligations.CtrlValuesAreFourCommands : Prop :=
  (∀ v : Word,
    decode (.bus (busWord true 0#6 v)) =
      if v = 0x00000000#32 then .ok .nopc
      else if v = 0x00000001#32 then .ok .init
      else if v = 0x00000002#32 then .ok .start
      else if v = 0x00000003#32 then .ok .initstart
      else .error (.bus .ctrlReservedBits)) ∧
  (∀ s u : State, exec .init s = .next u → exec .initstart s = exec .start u)

/-- R68: the words that select no row are exactly the cases (a) to (e), and every one of them is refused with the
reason of its case, in every state of an unmarked run. -/
def Obligations.ReservedTransactionsRefused : Prop :=
  (∀ w : BitVec 39,
    (∀ i r, busRow i = some r → r.selects w = false) ↔ ∃ x, reservedReason w = some x) ∧
  (∀ (s : State) (w : BitVec 39) (rest : List Event) (x : RefusalReason),
    s.refused = none → s.pending = .bus w :: rest → reservedReason w = some x → step s = refuse x)

/-- R67: the five patterns with their constraints on `t`, the `IDLE` selector, and every other selector. -/
def Obligations.SelectorTableDecides : Prop :=
  decode (.seq (0b001#3 ++ 0b000000#6)) = .ok .loadw ∧
  (∀ t : BitVec 6, 16#6 ≤ t → decode (.seq (0b010#3 ++ t)) = .ok (.expand t)) ∧
  decode (.seq (0b011#3 ++ 0b000000#6)) = .ok .copy ∧
  (∀ t : BitVec 6, decode (.seq (0b100#3 ++ t)) = .ok (.round t)) ∧
  decode (.seq (0b101#3 ++ 0b000000#6)) = .ok .accum ∧
  decode (.seq 0b000000000#9) = .error (.seq .noMicroOp) ∧
  (∀ x : BitVec 9, x ≠ 0#9 → (∀ i, WellFormed i → encode i ≠ .seq x) →
    decode (.seq x) = .error (.seq .unreachable))

/-! ### Host commands: where they complete and what they do -/

/-- R133: `NOPC`, word `0x4000000000`, with `READY = 1` changes nothing. -/
def Obligations.NopcDoesNothing : Prop :=
  decode (.bus 0x4000000000#39) = .ok .nopc ∧
  ∀ s : State, s.phase = .idle → exec .nopc s = .next s

/-- R130: `INIT`, word `0x4000000001`, with `READY = 1` loads `IV` into `H` and changes nothing else, so `READY`
stays 1; its effect on `H` is that of reset. -/
def Obligations.InitLoadsInitialValue : Prop :=
  decode (.bus 0x4000000001#39) = .ok .init ∧
  (∀ s : State, s.phase = .idle → exec .init s = .next { s with H := IV }) ∧
  State.reset.H = IV

/-- R131: `START`, word `0x4000000002`, with `READY = 1` and every block word written sets `(phase, t)` to `(LOAD, 0)`
and changes nothing else; `READY` becomes 0. -/
def Obligations.StartBeginsCompression : Prop :=
  decode (.bus 0x4000000002#39) = .ok .start ∧
  ∀ s : State, s.phase = .idle → (∀ i, s.written.get i = true) →
    ∃ u, exec .start s = .next u ∧ u = { s with phase := .load, t := 0 } ∧ u.ready = false

/-- R132: `INITSTART`, word `0x4000000003`, loads `IV` and sets `(phase, t)` to `(LOAD, 0)`; its effect is that of
`INIT` followed by `START`; `READY` becomes 0. -/
def Obligations.InitstartIsInitThenStart : Prop :=
  decode (.bus 0x4000000003#39) = .ok .initstart ∧
  ∀ s : State, s.phase = .idle → (∀ i, s.written.get i = true) →
    ∃ u, exec .initstart s = .next u ∧ u = { s with H := IV, phase := .load, t := 0 } ∧ u.ready = false ∧
      ∃ v, exec .init s = .next v ∧ exec .start v = .next u

/-- R135: `WRBLK i, v`, word `0x5000000000 + i * 2^32 + v`, with `READY = 1` writes `M[i]` only, its four bytes the most
significant first; and `M[i]` counts as written (R177). -/
def Obligations.WriteBlockStoresWord : Prop :=
  (∀ (i : BitVec 4) (v : Word),
    decode (.bus (BitVec.ofNat 39 (0x5000000000 + i.toNat * 2 ^ 32 + v.toNat))) = .ok (.wrblk i v)) ∧
  ∀ (s : State) (i : BitVec 4) (v : Word), s.phase = .idle →
    ∃ u, exec (.wrblk i v) s = .next u ∧
      u = { s with M := u.M, written := u.written } ∧
      u.M.get i = v ∧ u.written.get i = true ∧
      (∀ j, j ≠ i → u.M.get j = s.M.get j ∧ u.written.get j = s.written.get j) ∧
      blockByte u.M (i ++ 0#2) = v.extractLsb' 24 8 ∧ blockByte u.M (i ++ 1#2) = v.extractLsb' 16 8 ∧
      blockByte u.M (i ++ 2#2) = v.extractLsb' 8 8 ∧ blockByte u.M (i ++ 3#2) = v.extractLsb' 0 8

/-- R136: `RDBLK i`, word `0x1000000000 + i * 2^32`, returns `M[i]` whatever `READY` is, and changes nothing; what it
returns is the value of the last `WRBLK i`. -/
def Obligations.ReadBlockReturnsWord : Prop :=
  (∀ i : BitVec 4, decode (.bus (BitVec.ofNat 39 (0x1000000000 + i.toNat * 2 ^ 32))) = .ok (.rdblk i)) ∧
  (∀ (s : State) (i : BitVec 4), s.written.get i = true →
    exec (.rdblk i) s = .next { s with returned := s.returned ++ [s.M.get i] }) ∧
  (∀ (s u : State) (i : BitVec 4) (v : Word), exec (.wrblk i v) s = .next u →
    exec (.rdblk i) u = .next { u with returned := u.returned ++ [v] })

/-- R137, R176: `RDH i`, word `0x2000000000 + i * 2^32`, returns `H[i]` when `READY = 1`, and when `READY = 0` an
unspecified word (here a free value, the model's choice of log entry 2, whose draw is counted); no state of the engine
changes in either case. -/
def Obligations.ReadDigestReturnsWord : Prop :=
  (∀ i : BitVec 3, decode (.bus (BitVec.ofNat 39 (0x2000000000 + i.toNat * 2 ^ 32))) = .ok (.rdh i)) ∧
  ∀ (s : State) (i : BitVec 3),
    (s.phase = .idle → exec (.rdh i) s = .next { s with returned := s.returned ++ [s.H.get i] }) ∧
    (s.phase ≠ .idle → exec (.rdh i) s =
      .next { s with returned := s.returned ++ [Config.freeWord s.draws], draws := s.draws + 1 })

/-- R138: `RDST`, word `0x0100000000`, returns 1 when `phase = IDLE` and 0 otherwise, at every moment, and changes
nothing; a result of 1 stays true until `START` or `INITSTART`. -/
def Obligations.ReadStatusReturnsReady : Prop :=
  decode (.bus 0x0100000000#39) = .ok .rdst ∧
  (∀ s : State, exec .rdst s = .next { s with
    returned := s.returned ++ [if s.phase = .idle then 0x00000001#32 else 0x00000000#32] }) ∧
  (∀ s u : State, s.phase = .idle → step s = .next u → s.nextMove ≠ .run .start →
    s.nextMove ≠ .run .initstart → u.phase = .idle)

/-! ### Refusals -/

/-- R174, R179(c): in an unmarked run a transaction is refused exactly when a row of the closed list of refusal
reasons applies, with the first reason in the list's order; there are no other refusals. -/
def Obligations.RefusalListIsExact : Prop :=
  ∀ (s : State) (w : BitVec 39) (rest : List Event) (x : Refusal),
    s.refused = none → s.pending = .bus w :: rest →
      (step s = .refused x ↔ ∃ y, refusalReason s w = some y ∧ x = y.refusal)

/-- R175: while `READY = 0` the five write commands are refused with `X6`, and no write transaction at all is
accepted. -/
def Obligations.NoWriteWhileBusy : Prop :=
  (∀ (s : State) (i : Instr), s.phase ≠ .idle → isWrite i = true → exec i s = refuse .writeWhileBusy) ∧
  (∀ (s : State) (w : BitVec 39) (rest : List Event),
    s.phase ≠ .idle → s.pending = .bus w :: rest → busWrites w = true → ∃ x, step s = .refused x)

/-- R177: `START` and `INITSTART` with some block word never written are refused with `X7`, `RDBLK` of such a word
with `X8`; the "written" bit of `M[i]` is set by `WRBLK i` and cleared by reset. -/
def Obligations.UnwrittenBlockRefused : Prop :=
  (∀ s : State, s.phase = .idle → (∃ i, s.written.get i = false) →
    exec .start s = refuse .startUnwritten ∧ exec .initstart s = refuse .startUnwritten) ∧
  (∀ (s : State) (i : BitVec 4), s.written.get i = false → exec (.rdblk i) s = refuse .readUnwritten) ∧
  (∀ (s u : State) (i : BitVec 4) (v : Word), exec (.wrblk i v) s = .next u → u.written.get i = true) ∧
  (∀ s : State, s.nextMove = .reset → ∃ u, step s = .next u ∧ ∀ i, u.written.get i = false)

/-- R173: a refused transaction leaves a mark on the run, with its reason; the mark stays until a reset, an `INIT`
included; a reset clears it, and nothing but a refusal sets it. That a marked run refuses every event but a reset,
reads and engine turns among them, and again with the reason of the mark, is the model's choice (log entry 7). -/
def Obligations.RefusedMarkIsSticky : Prop :=
  (∀ (s : State) (x : RefusalReason), step s = refuse x → (markedStep s).refused = some x) ∧
  (∀ (n : Nat) (s : State) (x : RefusalReason), s.refused = some x → (∀ e ∈ s.pending.take n, e ≠ .reset) →
    (markedRun n s).refused = some x) ∧
  (∀ (s : State) (x : RefusalReason), s.refused = some x → s.pending.head? ≠ some .reset → step s = refuse x) ∧
  (∀ (s : State), s.pending.head? = some .reset → (markedStep s).refused = none) ∧
  (∀ (s u : State), step s = .next u → u.refused = s.refused ∨ s.nextMove = .reset)

/-! ### Micro-operations -/

/-- R100: `LOADW`, selector `001000000`, with every block word written, copies the block into `W[0..15]`, big-endian in
byte terms, keeps `W[16..63]`, goes to `(EXPAND, 16)`, so `READY` stays 0, and changes nothing else. -/
def Obligations.LoadwCopiesBlock : Prop :=
  decode (.seq 0b001000000#9) = .ok .loadw ∧
  ∀ s : State, (∀ i, s.written.get i = true) →
    ∃ u, exec .loadw s = .next u ∧ u = { s with W := u.W, phase := .expand, t := 16 } ∧
      (∀ i : BitVec 4, u.W.get (0#2 ++ i) = s.M.get i ∧
        (u.W.get (0#2 ++ i)).toNat =
          (blockByte s.M (i ++ 0#2)).toNat * 2 ^ 24 + (blockByte s.M (i ++ 1#2)).toNat * 2 ^ 16 +
            (blockByte s.M (i ++ 2#2)).toNat * 2 ^ 8 + (blockByte s.M (i ++ 3#2)).toNat) ∧
      (∀ j : BitVec 6, 16#6 ≤ j → u.W.get j = s.W.get j)

/-- R170: every micro-operation completes. For `LOADW` this includes the states in which some block word has never
been written, which R100 gives no specified result: the words taken from written cells are as always, the others
are free values (the model's choice, log entry 3). -/
def Obligations.MicroOpsComplete : Prop :=
  (∀ (s : State) (i : Instr), isMicroOp i = true → WellFormed i → ∃ u, exec i s = .next u) ∧
  (∀ s : State, ∃ u, exec .loadw s = .next u ∧ u = { s with W := u.W, phase := .expand, t := 16, draws := u.draws } ∧
    ∀ i : BitVec 4, s.written.get i = true → u.W.get (0#2 ++ i) = s.M.get i)

/-- R101: `EXPAND[t]`, selector `010tttttt`, `16 <= t <= 63`, writes `W[t] = W[t-16] + SSIG0(W[t-15]) + W[t-7] +
SSIG1(W[t-2])`, goes to `(EXPAND, t+1)` or, at 63, to `(COPY, 0)`, and changes nothing else. -/
def Obligations.ExpandComputesScheduleWord : Prop :=
  ∀ (s : State) (t : BitVec 6), 16#6 ≤ t →
    decode (.seq (0b010#3 ++ t)) = .ok (.expand t) ∧
    exec (.expand t) s = .next { s with
      W := s.W.put t (s.W.get (t - 16#6) + ssig0 (s.W.get (t - 15#6)) + s.W.get (t - 7#6) +
        ssig1 (s.W.get (t - 2#6)))
      phase := if t < 63#6 then .expand else .copy
      t := if t < 63#6 then t + 1#6 else 0#6 }

/-- R110: `COPY`, selector `011000000`, sets `a..h` to `H[0..7]`, goes to `(ROUND, 0)` and changes nothing else. -/
def Obligations.CopyLoadsRegisters : Prop :=
  decode (.seq 0b011000000#9) = .ok .copy ∧
  ∀ s : State, exec .copy s = .next { s with
    reg := { a := s.H.get 0, b := s.H.get 1, c := s.H.get 2, d := s.H.get 3,
             e := s.H.get 4, f := s.H.get 5, g := s.H.get 6, h := s.H.get 7 }
    phase := .round
    t := 0 }

/-- R111: `ROUND[t]`, selector `100tttttt`, computes `T1` and `T2` from the registers as they were, moves the
registers, goes to `(ROUND, t+1)` or, at 63, to `(ACCUM, 0)`, and changes nothing else. -/
def Obligations.RoundUpdatesRegisters : Prop :=
  ∀ (s : State) (t : BitVec 6) (T1 T2 : Word),
    T1 = s.reg.h + bsig1 s.reg.e + ch s.reg.e s.reg.f s.reg.g + K.get t + s.W.get t →
    T2 = bsig0 s.reg.a + maj s.reg.a s.reg.b s.reg.c →
    decode (.seq (0b100#3 ++ t)) = .ok (.round t) ∧
    exec (.round t) s = .next { s with
      reg := { h := s.reg.g, g := s.reg.f, f := s.reg.e, e := s.reg.d + T1,
               d := s.reg.c, c := s.reg.b, b := s.reg.a, a := T1 + T2 }
      phase := if t < 63#6 then .round else .accum
      t := if t < 63#6 then t + 1#6 else 0#6 }

/-- R112: `ACCUM`, selector `101000000`, adds each working register into its hash word, goes to `(IDLE, 0)`, so `READY`
becomes 1, and changes nothing else. -/
def Obligations.AccumAddsRegisters : Prop :=
  decode (.seq 0b101000000#9) = .ok .accum ∧
  ∀ s : State, ∃ u, exec .accum s = .next u ∧ u = { s with H := u.H, phase := .idle, t := 0 } ∧
    u.ready = true ∧
    u.H.get 0 = s.H.get 0 + s.reg.a ∧ u.H.get 1 = s.H.get 1 + s.reg.b ∧
    u.H.get 2 = s.H.get 2 + s.reg.c ∧ u.H.get 3 = s.H.get 3 + s.reg.d ∧
    u.H.get 4 = s.H.get 4 + s.reg.e ∧ u.H.get 5 = s.H.get 5 + s.reg.f ∧
    u.H.get 6 = s.H.get 6 + s.reg.g ∧ u.H.get 7 = s.H.get 7 + s.reg.h

/-! ### Frames -/

/-- R49: no read has a side effect. A read returns one word and leaves every register, flag and cell as it was (the
count of free values is the model's own field, log entry 2). -/
def Obligations.ReadsFrame : Prop :=
  ∀ (s u : State) (i : Instr), isRead i = true → exec i s = .next u →
    ∃ v, u = { s with returned := s.returned ++ [v], draws := u.draws }

/-- What the five write commands leave unchanged: `W`, the working registers, the words returned, the mark and the
pending events always; `H` but for `INIT` and `INITSTART`; `(phase, t)` but for `START` and `INITSTART`; every block
word and its "written" bit but for the one that `WRBLK` names (R130 to R135). -/
def Obligations.WritesFrame : Prop :=
  ∀ (s u : State) (i : Instr), isWrite i = true → exec i s = .next u →
    u.W = s.W ∧ u.reg = s.reg ∧ u.returned = s.returned ∧ u.refused = s.refused ∧ u.pending = s.pending ∧
    u.draws = s.draws ∧
    (i ≠ .init → i ≠ .initstart → u.H = s.H) ∧
    (i ≠ .start → i ≠ .initstart → u.phase = s.phase ∧ u.t = s.t) ∧
    (∀ j, (∀ v, i ≠ .wrblk j v) → u.M.get j = s.M.get j ∧ u.written.get j = s.written.get j)

/-- What the five micro-operations leave unchanged: `M`, the "written" bits, the words returned, the mark and the
pending events always; `H` but for `ACCUM`; the working registers but for `COPY` and `ROUND`; every schedule word but
`W[0..15]` for `LOADW` and `W[t]` for `EXPAND[t]` (R100 to R112). -/
def Obligations.MicroOpsFrame : Prop :=
  ∀ (s u : State) (i : Instr), isMicroOp i = true → exec i s = .next u →
    u.M = s.M ∧ u.written = s.written ∧ u.returned = s.returned ∧ u.refused = s.refused ∧
    u.pending = s.pending ∧
    (i ≠ .accum → u.H = s.H) ∧
    (i ≠ .copy → (∀ t, i ≠ .round t) → u.reg = s.reg) ∧
    (∀ j : BitVec 6, (i = .loadw → 16#6 ≤ j) → i ≠ .expand j → u.W.get j = s.W.get j)

/-! ### Steps -/

/-- A pending transaction word that decodes runs its command: the step is `exec` of it in the state in which the word
is no longer pending. -/
def Obligations.StepRunsTransaction : Prop :=
  ∀ (s : State) (w : BitVec 39) (rest : List Event) (i : Instr),
    s.refused = none → s.pending = .bus w :: rest → decode (.bus w) = .ok i →
      step s = exec i { s with pending := rest }

/-- On the engine's turn, or when nothing is pending, a legal selector other than `IDLE`'s runs its micro-operation:
the step is `exec` of it in the state in which the turn is no longer pending. -/
def Obligations.StepRunsMicroOp : Prop :=
  ∀ (s : State) (rest : List Event),
    s.refused = none → (s.pending = .engine :: rest ∨ (s.pending = [] ∧ rest = [])) →
    s.phase ≠ .idle → legalSelector s.phase s.t →
      ∃ i, decode (.seq (selector s.phase s.t)) = .ok i ∧ isMicroOp i = true ∧
        step s = exec i { s with pending := rest }

/-- R28, R67: in `IDLE` the engine has no micro-operation and no step: its turn changes nothing. -/
def Obligations.IdleEngineDoesNothing : Prop :=
  ∀ (s : State) (rest : List Event),
    s.refused = none → (s.pending = .engine :: rest ∨ (s.pending = [] ∧ rest = [])) →
    s.phase = .idle → s.t = 0 → step s = .next { s with pending := rest }

/-- R190: `RESET` at any moment, whatever the state: `H` is `IV`, the sequencer is `(IDLE, 0)`, so `READY = 1` and
`STATUS` reads 1, every block word is marked never written and the mark is clear. -/
def Obligations.ResetAbortsAnything : Prop :=
  ∀ (s : State) (rest : List Event), s.pending = .reset :: rest →
    ∃ u, step s = .next u ∧ (∀ i, u.H.get i = IV.get i) ∧ u.phase = .idle ∧ u.t = 0 ∧
      u.ready = true ∧ u.statusWord = 0x00000001#32 ∧ (∀ i, u.written.get i = false) ∧
      u.refused = none ∧ u.pending = rest ∧ u.returned = s.returned

/-- R36: the state after reset. -/
def Obligations.ResetStateValues : Prop :=
  (∀ i, State.reset.H.get i = IV.get i) ∧ State.reset.phase = .idle ∧ State.reset.t = 0 ∧
  State.reset.ready = true ∧ State.reset.statusWord = 0x00000001#32 ∧
  (∀ i, State.reset.written.get i = false) ∧ State.reset.refused = none

/-! ### Rules of the whole machine -/

/-- R21: `H` is written by `INIT` and `INITSTART` (to `IV`), by `ACCUM`, and by reset, and by nothing else; no command
stores a host value into `H`. -/
def Obligations.HashStateWriters : Prop :=
  ∀ s u : State, step s = .next u →
    u.H = s.H ∨
    ((s.nextMove = .run .init ∨ s.nextMove = .run .initstart ∨ s.nextMove = .reset) ∧ u.H = IV) ∨
    (s.nextMove = .run .accum ∧ u.H = accumulate s.H s.reg)

/-- R22: a block word is written by `WRBLK` only (and given up by reset): no micro-operation writes `M`, and `INIT`
does not touch it. -/
def Obligations.BlockBufferWriters : Prop :=
  ∀ (s u : State) (j : BitVec 4), step s = .next u → s.nextMove ≠ .reset →
    (u.M.get j = s.M.get j ∧ u.written.get j = s.written.get j) ∨
    ∃ v, s.nextMove = .run (.wrblk j v) ∧ u.M.get j = v ∧ u.written.get j = true

/-- R23, R24: `W` is written by `LOADW` and `EXPAND` only, one word per `EXPAND`, and the working registers by `COPY`
and `ROUND` only (and both are given up by reset). -/
def Obligations.HiddenStateWriters : Prop :=
  ∀ (s u : State), step s = .next u → s.nextMove ≠ .reset →
    (∀ j : BitVec 6, u.W.get j = s.W.get j ∨ (s.nextMove = .run .loadw ∧ j < 16#6) ∨
      s.nextMove = .run (.expand j)) ∧
    (u.reg = s.reg ∨ s.nextMove = .run .copy ∨ ∃ t, s.nextMove = .run (.round t))

/-- R29: `READY = (phase = IDLE)`, visible as bit 0 of `STATUS`, is cleared by `START` and `INITSTART` and set by `ACCUM`
and by reset, and nothing else changes it. -/
def Obligations.ReadyWriters : Prop :=
  (∀ s : State, (s.ready = true ↔ s.phase = .idle) ∧ s.statusWord.getLsbD 0 = s.ready) ∧
  (∀ s u : State, step s = .next u →
    (s.ready = true → u.ready = false → s.nextMove = .run .start ∨ s.nextMove = .run .initstart) ∧
    (s.ready = false → u.ready = true → s.nextMove = .run .accum ∨ s.nextMove = .reset) ∧
    (s.nextMove = .run .start ∨ s.nextMove = .run .initstart → u.ready = false) ∧
    (s.nextMove = .run .accum ∨ s.nextMove = .reset → u.ready = true))

/-- R28: the only transitions of `(phase, t)` are those of the table, for every block alike: a micro-operation's own
row, `START` and `INITSTART` to `(LOAD, 0)`, reset to `(IDLE, 0)`; nothing else moves the sequencer. -/
def Obligations.SequencerTransitions : Prop :=
  ∀ s u : State, step s = .next u →
    (∃ i, s.nextMove = .run i ∧ isMicroOp i = true ∧ (u.phase, u.t) = nextSelector s.phase s.t) ∨
    ((s.nextMove = .run .start ∨ s.nextMove = .run .initstart) ∧ s.phase = .idle ∧ (u.phase, u.t) = (.load, 0)) ∨
    (s.nextMove = .reset ∧ (u.phase, u.t) = (.idle, 0)) ∨
    ((u.phase, u.t) = (s.phase, s.t) ∧ ∀ i, s.nextMove = .run i → isMicroOp i = false)

/-- R28, R208: on its turn a busy engine always performs a micro-operation and has one less left, so a compression
ends; from `(LOAD, 0)` it has 115. -/
def Obligations.BusyEngineProgresses : Prop :=
  stepsLeft .load 0 = 115 ∧
  ∀ s : State, s.refused = none → (s.pending = [] ∨ s.pending.head? = some .engine) → s.phase ≠ .idle →
    legalSelector s.phase s.t →
    ∃ u, step s = .next u ∧ stepsLeft u.phase u.t + 1 = stepsLeft s.phase s.t

/-- R170, R67: from a legal selector no step is a fault, and no micro-operation is refused. The two places where the
model stops with a fault are a selector outside the table, which the spec calls unreachable (the model's choice, log
entry 6), and `EXPAND` with an index that no selector of the table holds. -/
def Obligations.NoStepFaults : Prop :=
  (∀ (s : State) (f : Fault), legalSelector s.phase s.t → step s ≠ .fault f) ∧
  (∀ (s : State) (i : Instr) (x : Refusal), isMicroOp i = true → exec i s ≠ .refused x) ∧
  (∀ (s : State) (t : BitVec 6), t < 16#6 → exec (.expand t) s = .fault .unreachableSelector) ∧
  (∀ s : State, s.refused = none → (s.pending = [] ∨ s.pending.head? = some .engine) →
    ¬ legalSelector s.phase s.t → step s = .fault .unreachableSelector)

/-! ### The invariant -/

/-- The invariant of a compression holds after reset. -/
def Obligations.ResetMeetsInvariant : Prop :=
  State.reset.Inv

/-- Every step keeps the invariant of a compression: legal selector, block written while busy, schedule and registers
as `SCHED` and the rounds give them. -/
def Obligations.StepKeepsInvariant : Prop :=
  ∀ s u : State, s.Inv → step s = .next u → u.Inv

/-- The last micro-operation of a compression leaves `COMPRESS(H, M)` in `H`, in every state that meets the invariant,
however the compression got there. -/
def Obligations.AccumLeavesCompression : Prop :=
  ∀ s : State, s.Inv → s.nextMove = .run .accum →
    ∃ u, step s = .next u ∧ u.H = compress s.H s.M ∧ u.M = s.M ∧ u.ready = true

/-! ### The compression -/

/-- R113: `START` from `READY = 1` with all sixteen words written, and then nothing: after exactly 115
micro-operations `phase = IDLE`, `H = COMPRESS(s, m)` and `M = m`; before that the engine is busy and `H` is what it
was. -/
def Obligations.StartComputesCompression : Prop :=
  ∀ s : State, s.refused = none → s.phase = .idle → (∀ i, s.written.get i = true) →
    s.pending = [eventOf .start] →
    (∃ u, run 116 s = .next u ∧ u.phase = .idle ∧ u.t = 0 ∧ u.H = compress s.H s.M ∧ u.M = s.M ∧
      u.written = s.written ∧ u.returned = s.returned) ∧
    (∀ n, 1 ≤ n → n < 116 → ∃ u, run n s = .next u ∧ u.ready = false ∧ u.H = s.H ∧ u.M = s.M)

/-- R113, R52: `START` from `READY = 1` with all sixteen words written, and then nothing but reads, in any interleaving
with the engine's turns. After the `START` and any `n` of the events that follow, with `c` engine turns among them, the
engine has performed `c` of exactly 115 micro-operations; until the last of them it is busy and `H` is what it was, and
from then on `phase = IDLE` and `H = COMPRESS(s, m)`; `M = m` throughout. -/
def Obligations.ReadsDoNotDisturbCompression : Prop :=
  ∀ (s : State) (wait rest : List Event), s.refused = none → s.phase = .idle →
    (∀ i, s.written.get i = true) → s.pending = eventOf .start :: wait ++ rest →
    (∀ e ∈ wait, isWaiting e = true) →
    ∀ n, n ≤ wait.length →
      ∃ u, run (1 + n) s = .next u ∧ u.pending = wait.drop n ++ rest ∧
        u.M = s.M ∧ u.written = s.written ∧ u.refused = none ∧
        ((wait.take n).count .engine < 115 →
          stepsLeft u.phase u.t = 115 - (wait.take n).count .engine ∧ u.ready = false ∧ u.H = s.H) ∧
        (115 ≤ (wait.take n).count .engine →
          u.phase = .idle ∧ u.t = 0 ∧ u.H = compress s.H s.M)

/-- R71, R52: the pseudo-commands, performed with engine turns anywhere between their commands. `LDBLK`, its `WRBLK` in
any order and any of them omitted whose word `M` already holds, fills the buffer and changes nothing else. `WAIT` ends
at `READY = 1`; and however polls and engine turns come, once the engine has had the turns the compression needs, a
`WAIT` ends no later than the next poll. `HASHBLK` and `FIRSTBLK` leave `COMPRESS(H, w)` and `COMPRESS(IV, w)` in `H`.
`RDDIGEST` returns `H[0]..H[7]` in order and changes nothing. -/
def Obligations.PseudoCommandsRun : Prop :=
  (∀ (s : State) (n : Nat) (w : Bank Word 4) (order : List (BitVec 4)),
    s.refused = none → s.phase = .idle → s.t = 0#6 →
    (∀ i, i ∈ order ∨ (s.M.get i = w.get i ∧ s.written.get i = true)) →
    performs (commands (writeWords order w)) n s = true →
      ∃ u, run n s = .next u ∧ u = { s with M := w, written := Bank.fill true, pending := s.pending.drop n }) ∧
  (∀ (s : State) (n : Nat), s.refused = none → legalSelector s.phase s.t → performs [.wait] n s = true →
    ∃ u, run n s = .next u ∧ u.phase = .idle) ∧
  (∀ (s : State) (es rest : List Event), s.refused = none → legalSelector s.phase s.t →
    s.pending = es ++ eventOf .rdst :: rest → (∀ e ∈ es, e = .engine ∨ e = eventOf .rdst) →
    stepsLeft s.phase s.t ≤ es.count .engine →
    ∃ n, n ≤ es.length + 1 ∧ performs [.wait] n s = true) ∧
  (∀ (s : State) (n : Nat) (w : Bank Word 4), s.refused = none → s.phase = .idle → s.t = 0#6 →
    (performs (hashblk w) n s = true →
      ∃ u, run n s = .next u ∧ u.phase = .idle ∧ u.t = 0#6 ∧ u.M = w ∧ u.H = compress s.H w) ∧
    (performs (firstblk w) n s = true →
      ∃ u, run n s = .next u ∧ u.phase = .idle ∧ u.t = 0#6 ∧ u.M = w ∧ u.H = compress IV w)) ∧
  (∀ (s : State) (n : Nat), s.refused = none → s.phase = .idle → s.t = 0#6 →
    performs (commands rddigest) n s = true →
      ∃ u, run n s = .next u ∧
        u = { s with returned := s.returned ++ s.H.cells.toList, pending := s.pending.drop n })

/-- R156, R157: the command sequence of a digest. Whenever a run from a ready engine performs it, whatever `M`, `W` and
the registers hold, with engine turns anywhere and each `WAIT` taking as many `RDST` as it takes, no transaction is
refused and the last eight words returned are `SHA256_WORDS(msg)`. The same with the first `START` made an `INITSTART`;
and without the `INIT` where `H` is already `IV`, as it is after reset. -/
def Obligations.CommandSequenceComputesDigest : Prop :=
  ∀ (s : State) (msg : List Byte) (n : Nat), s.refused = none → s.phase = .idle → s.t = 0#6 →
    (performs (digestProgram msg) n s = true ∨ performs (digestProgramFused msg) n s = true ∨
      (s.H = IV ∧ performs (blocksProgram msg) n s = true)) →
    ∃ u answers, run n s = .next u ∧ u.phase = .idle ∧ u.H = sha256Words msg ∧
      u.returned = s.returned ++ answers ++ (sha256Words msg).cells.toList

/-- R157, R103: nothing that an earlier use left in `W` or in the working registers reaches a result. Two states that
differ only in what is dead answer alike, step for step, and go on differing only in what is dead. -/
def Obligations.DeadStateIsUnobservable : Prop :=
  ∀ s v : State, s.SameLive v →
    (∀ x, step s = .refused x → step v = .refused x) ∧
    (∀ f, step s = .fault f → step v = .fault f) ∧
    (∀ u, step s = .next u → ∃ w, step v = .next w ∧ u.SameLive w)

/-! ### Word functions -/

/-- R80 to R83: addition is modulo `2^32`, commutative and associative; bit `j` of `ROTR(x, n)` is bit `(j + n) mod 32` of
`x`, and for `1 <= n <= 31` it is `(x >> n) + ((x * 2^(32-n)) mod 2^32)`; a shift right is the floor of a division by
`2^n`, bit `j` being bit `j + n` where there is one; `xor`, `and`, `not` work bit by bit, and `not x = 0xFFFFFFFF - x`. -/
def Obligations.PrimitiveOperators : Prop :=
  (∀ x y z : Word, (add32 x y).toNat = (x.toNat + y.toNat) % 2 ^ 32 ∧ add32 x y = add32 y x ∧
    add32 (add32 x y) z = add32 x (add32 y z)) ∧
  (∀ (x : Word) (n j : Nat), j < 32 → (rotr x n).getLsbD j = x.getLsbD ((j + n) % 32)) ∧
  (∀ (x : Word) (n : Nat), 1 ≤ n → n ≤ 31 →
    (rotr x n).toNat = x.toNat / 2 ^ n + (x.toNat * 2 ^ (32 - n)) % 2 ^ 32) ∧
  (∀ (x : Word) (n : Nat), (shr x n).toNat = x.toNat / 2 ^ n) ∧
  (∀ (x : Word) (n j : Nat), j < 32 →
    (shr x n).getLsbD j = if j + n ≤ 31 then x.getLsbD (j + n) else false) ∧
  (∀ (x y : Word) (j : Nat), j < 32 →
    (x ^^^ y).getLsbD j = (x.getLsbD j ^^ y.getLsbD j) ∧ (x &&& y).getLsbD j = (x.getLsbD j && y.getLsbD j) ∧
      (~~~x).getLsbD j = !x.getLsbD j) ∧
  (∀ x : Word, ~~~x = 0xFFFFFFFF#32 - x)

/-- R84 to R87: the four sigma functions as the source writes them, and each bit of them in terms of the bits of the
operand. -/
def Obligations.SigmaBits : Prop :=
  ∀ x : Word,
    ssig0 x = rotr x 7 ^^^ rotr x 18 ^^^ shr x 3 ∧ ssig1 x = rotr x 17 ^^^ rotr x 19 ^^^ shr x 10 ∧
    bsig0 x = rotr x 2 ^^^ rotr x 13 ^^^ rotr x 22 ∧ bsig1 x = rotr x 6 ^^^ rotr x 11 ^^^ rotr x 25 ∧
    ∀ j : Nat, j < 32 →
      (ssig0 x).getLsbD j =
        ((x.getLsbD ((j + 7) % 32) ^^ x.getLsbD ((j + 18) % 32)) ^^
          (decide (j + 3 < 32) && x.getLsbD (j + 3))) ∧
      (ssig1 x).getLsbD j =
        ((x.getLsbD ((j + 17) % 32) ^^ x.getLsbD ((j + 19) % 32)) ^^
          (decide (j + 10 < 32) && x.getLsbD (j + 10))) ∧
      (bsig0 x).getLsbD j =
        ((x.getLsbD ((j + 2) % 32) ^^ x.getLsbD ((j + 13) % 32)) ^^ x.getLsbD ((j + 22) % 32)) ∧
      (bsig1 x).getLsbD j =
        ((x.getLsbD ((j + 6) % 32) ^^ x.getLsbD ((j + 11) % 32)) ^^ x.getLsbD ((j + 25) % 32))

/-- R88, R89: `CH` takes each bit from `y` where `x` has 1 and from `z` where it has 0; the forms with `or`, with `+` and
with one `and` are equal to the source's. A bit of `MAJ` is 1 exactly when at least two of the three operand bits are; it
is symmetric, and equal to the form with `or`. -/
def Obligations.ChChoosesMajIsMajority : Prop :=
  ∀ x y z : Word,
    ((∀ j, j < 32 → (ch x y z).getLsbD j = if x.getLsbD j then y.getLsbD j else z.getLsbD j) ∧
      ch x y z = (x &&& y) ||| (~~~x &&& z) ∧ ch x y z = (x &&& y) + (~~~x &&& z) ∧
      ch x y z = z ^^^ (x &&& (y ^^^ z))) ∧
    (∀ j, j < 32 → (maj x y z).getLsbD j =
      decide (2 ≤ (x.getLsbD j).toNat + (y.getLsbD j).toNat + (z.getLsbD j).toNat)) ∧
    maj x y z = maj y x z ∧ maj x y z = maj x z y ∧
    maj x y z = (x &&& y) ||| (z &&& (x ||| y))

/-- R114, R115, R101: each multi-operand sum is the exact integer sum of its operands, reduced once at the end. -/
def Obligations.SumsReducedOnce : Prop :=
  (∀ (r : Working) (k w : Word), (roundT1 r k w).toNat =
    (r.h.toNat + (bsig1 r.e).toNat + (ch r.e r.f r.g).toNat + k.toNat + w.toNat) % 2 ^ 32) ∧
  (∀ r : Working, (roundT2 r).toNat = ((bsig0 r.a).toNat + (maj r.a r.b r.c).toNat) % 2 ^ 32) ∧
  (∀ (r : Working) (k w : Word), (rnd r k w).e.toNat = (r.d.toNat + r.h.toNat + (bsig1 r.e).toNat +
    (ch r.e r.f r.g).toNat + k.toNat + w.toNat) % 2 ^ 32) ∧
  (∀ (r : Working) (k w : Word), (rnd r k w).a.toNat = (r.h.toNat + (bsig1 r.e).toNat +
    (ch r.e r.f r.g).toNat + k.toNat + w.toNat + (bsig0 r.a).toNat + (maj r.a r.b r.c).toNat) % 2 ^ 32) ∧
  (∀ (w : Bank Word 6) (t : BitVec 6), (scheduleWord w t).toNat =
    ((w.get (t - 16#6)).toNat + (ssig0 (w.get (t - 15#6))).toNat + (w.get (t - 7#6)).toNat +
      (ssig1 (w.get (t - 2#6))).toNat) % 2 ^ 32)

/-- R102: `SCHED(m)` is the block's 16 words followed by the recurrence; and `W` is `SCHED(M)` when a compression is done
with its expander, that is at `COPY`. -/
def Obligations.ScheduleRecurrence : Prop :=
  (∀ m : Bank Word 4,
    (∀ i : BitVec 4, (sched m).get (0#2 ++ i) = m.get i) ∧
    (∀ t : BitVec 6, 16#6 ≤ t → (sched m).get t =
      (sched m).get (t - 16#6) + ssig0 ((sched m).get (t - 15#6)) + (sched m).get (t - 7#6) +
        ssig1 ((sched m).get (t - 2#6)))) ∧
  (∀ s : State, s.Inv → s.phase = .copy → s.W = sched s.M)

/-! ### The host's functions -/

/-- R45: the bytes of a block and its words, both ways, big-endian. -/
def Obligations.BlockBytesBigEndian : Prop :=
  (∀ (b : BitVec 6 → Byte) (j : BitVec 6), blockByte (blockOfBytes b) j = b j) ∧
  (∀ (m : Bank Word 4), blockOfBytes (blockByte m) = m) ∧
  (∀ (b : BitVec 6 → Byte) (i : BitVec 4), ((blockOfBytes b).get i).toNat =
    (b (i ++ 0#2)).toNat * 2 ^ 24 + (b (i ++ 1#2)).toNat * 2 ^ 16 + (b (i ++ 2#2)).toNat * 2 ^ 8 +
      (b (i ++ 3#2)).toNat)

/-- R150, R151, R153: what `PAD` appends, and where. The padded message is the message, the byte `0x80`, `z` bytes 0, and
the low 64 bits of the bit-length in eight bytes, the most significant first. `z` is the least number with
`L + 1 + z ≡ 56 (mod 64)`, and what the two cases give. The length is a multiple of 64 between `L + 9` and `L + 72`. -/
def Obligations.PaddingLengths : Prop :=
  ∀ msg : List Byte,
    (pad msg).length = msg.length + 1 + padZeros msg.length + 8 ∧
    (pad msg).length % 64 = 0 ∧ msg.length + 9 ≤ (pad msg).length ∧ (pad msg).length ≤ msg.length + 72 ∧
    (∀ j, j < msg.length → (pad msg)[j]? = msg[j]?) ∧ (pad msg)[msg.length]? = some 0x80#8 ∧
    (∀ j, j < padZeros msg.length → (pad msg)[msg.length + 1 + j]? = some 0x00#8) ∧
    (∀ k, k < 8 → (pad msg)[msg.length + 1 + padZeros msg.length + k]? =
      some (BitVec.ofNat 8 ((8 * msg.length) % 2 ^ 64 / 2 ^ (8 * (7 - k))))) ∧
    (msg.length + 1 + padZeros msg.length) % 64 = 56 ∧
    (∀ z, (msg.length + 1 + z) % 64 = 56 → padZeros msg.length ≤ z) ∧
    (msg.length % 64 ≤ 55 → padZeros msg.length = 55 - msg.length % 64) ∧
    (56 ≤ msg.length % 64 → padZeros msg.length = 119 - msg.length % 64)

/-- R153: `PAD` is injective on messages of fewer than `2^61` bytes. -/
def Obligations.PaddingInjective : Prop :=
  ∀ msg msg' : List Byte, msg.length < 2 ^ 61 → msg'.length < 2 ^ 61 → pad msg = pad msg' → msg = msg'

/-- R152: the blocks of a byte sequence of `64 * n` bytes are `n`, taken in increasing order, and word `i` of block `k` is
the four bytes from `64k + 4i` on, big-endian. R155, from R150: a padded message has `floor((L + 8) / 64) + 1` of them. -/
def Obligations.BlocksCoverMessage : Prop :=
  (∀ (p : List Byte) (n : Nat), p.length = 64 * n →
    (blocks p).length = n ∧
    ∀ k, k < n → ∃ m, (blocks p)[k]? = some m ∧
      ∀ i : BitVec 4, ∃ b0 b1 b2 b3 : Byte,
        p[64 * k + 4 * i.toNat]? = some b0 ∧ p[64 * k + 4 * i.toNat + 1]? = some b1 ∧
        p[64 * k + 4 * i.toNat + 2]? = some b2 ∧ p[64 * k + 4 * i.toNat + 3]? = some b3 ∧
        m.get i = b0 ++ b1 ++ b2 ++ b3) ∧
  (∀ msg : List Byte,
    (blocks (pad msg)).length = (msg.length + 8) / 64 + 1 ∧ 64 * (blocks (pad msg)).length = (pad msg).length)

/-- R154: `HEX(d)` is the character `d` of `0123456789abcdef`. `ENCODE` gives 64 characters, each a lower-case hexadecimal
digit; the character `8i + (7 - j)` is `HEX` of bits `4j+3..4j` of word `i`. As bytes the digest has 32, byte `4i + k` being
`s[i][31-8k:24-8k]`. -/
def Obligations.EncodingShape : Prop :=
  (∀ d : BitVec 4, "0123456789abcdef".toList[d.toNat]? = some (hexDigit d)) ∧
  ∀ s : Bank Word 3,
    (encodeDigest s).length = 64 ∧ (encodeDigest s).toList = encodeChars s ∧
    (∀ c ∈ encodeChars s, c ∈ "0123456789abcdef".toList) ∧
    (∀ (i : BitVec 3) (j : Nat), j < 8 →
      (encodeChars s)[8 * i.toNat + (7 - j)]? = some (hexDigit ((s.get i).extractLsb' (4 * j) 4))) ∧
    (digestBytes s).length = 32 ∧
    ∀ (i : BitVec 3) (k : Nat), k < 4 →
      (digestBytes s)[4 * i.toNat + k]? = some ((s.get i).extractLsb' (24 - 8 * k) 8)

/-- R71, R135: `LDBLK`, issued to a ready engine, leaves exactly its sixteen words in `M`, all of them written, and
changes nothing else. -/
def Obligations.LoadBlockFillsBuffer : Prop :=
  ∀ (s : State) (m : Bank Word 4) (rest : List Event), s.refused = none → s.phase = .idle →
    s.pending = (ldblk m).map eventOf ++ rest →
    run 16 s = .next { s with M := m, written := Bank.fill true, pending := rest }
end

