-- ==== Sys2Proof/Laws/Bank.lean ====
section
/-!
SUPPORT. Laws of register banks: read after write, and two banks with the same cells are equal.
-/

namespace Sys2Proof.Bank

variable {α : Type} {k : Nat}

@[simp] theorem get_put_same (b : Bank α k) (i : BitVec k) (v : α) : (b.put i v).get i = v := by
  simp [get, put]

theorem get_put_ne (b : Bank α k) {i j : BitVec k} (v : α) (h : j ≠ i) : (b.put i v).get j = b.get j := by
  have hn : i.toNat ≠ j.toNat := fun e => h (BitVec.eq_of_toNat_eq e.symm)
  simp [get, put, hn]

theorem get_put (b : Bank α k) (i j : BitVec k) (v : α) :
    (b.put i v).get j = if j = i then v else b.get j := by
  split
  · next h => subst h; simp
  · next h => exact get_put_ne b v h

@[simp] theorem get_build (f : BitVec k → α) (i : BitVec k) : (build f).get i = f i := by
  simp [get, build]

@[simp] theorem get_fill (v : α) (i : BitVec k) : (fill v : Bank α k).get i = v := by
  simp [fill]

/-- Two banks are equal when they agree at every index. -/
theorem ext_get {b c : Bank α k} (h : ∀ i, b.get i = c.get i) : b = c := by
  obtain ⟨b⟩ := b
  obtain ⟨c⟩ := c
  congr 1
  ext n hn
  simpa [get] using h (BitVec.ofNatLT n hn)

theorem eq_fill_iff {b : Bank α k} {v : α} : b = fill v ↔ ∀ i, b.get i = v :=
  ⟨fun h i => by simp [h], fun h => ext_get fun i => by simp [h i]⟩

/-- Writing the value a cell already holds changes nothing. -/
theorem put_get_self (b : Bank α k) (i : BitVec k) : b.put i (b.get i) = b :=
  ext_get fun j => by rw [get_put]; split <;> simp_all

/-- Writes to different cells commute. -/
theorem put_comm (b : Bank α k) {i j : BitVec k} (v w : α) (h : i ≠ j) :
    (b.put i v).put j w = (b.put j w).put i v :=
  ext_get fun n => by
    simp only [get_put]
    split <;> split <;> simp_all

end Sys2Proof.Bank
end

