-- ==== Sys2Proof/Laws/State.lean ====
section
/-!
SUPPORT. What each state operation does to each field: one lemma per field per operation, all true by rfl, so that
no later proof unfolds a record update.
-/

namespace Sys2Proof.Machine.State

variable (s : State)

/-! ### `goto` -/

@[simp] theorem goto_H (p : Phase) (n : BitVec 6) : (s.goto p n).H = s.H := rfl
@[simp] theorem goto_M (p : Phase) (n : BitVec 6) : (s.goto p n).M = s.M := rfl
@[simp] theorem goto_W (p : Phase) (n : BitVec 6) : (s.goto p n).W = s.W := rfl
@[simp] theorem goto_reg (p : Phase) (n : BitVec 6) : (s.goto p n).reg = s.reg := rfl
@[simp] theorem goto_phase (p : Phase) (n : BitVec 6) : (s.goto p n).phase = p := rfl
@[simp] theorem goto_t (p : Phase) (n : BitVec 6) : (s.goto p n).t = n := rfl
@[simp] theorem goto_written (p : Phase) (n : BitVec 6) : (s.goto p n).written = s.written := rfl
@[simp] theorem goto_refused (p : Phase) (n : BitVec 6) : (s.goto p n).refused = s.refused := rfl
@[simp] theorem goto_pending (p : Phase) (n : BitVec 6) : (s.goto p n).pending = s.pending := rfl
@[simp] theorem goto_returned (p : Phase) (n : BitVec 6) : (s.goto p n).returned = s.returned := rfl
@[simp] theorem goto_draws (p : Phase) (n : BitVec 6) : (s.goto p n).draws = s.draws := rfl

/-! ### `loadIV` -/

@[simp] theorem loadIV_H : s.loadIV.H = IV := rfl
@[simp] theorem loadIV_M : s.loadIV.M = s.M := rfl
@[simp] theorem loadIV_W : s.loadIV.W = s.W := rfl
@[simp] theorem loadIV_reg : s.loadIV.reg = s.reg := rfl
@[simp] theorem loadIV_phase : s.loadIV.phase = s.phase := rfl
@[simp] theorem loadIV_t : s.loadIV.t = s.t := rfl
@[simp] theorem loadIV_written : s.loadIV.written = s.written := rfl
@[simp] theorem loadIV_refused : s.loadIV.refused = s.refused := rfl
@[simp] theorem loadIV_pending : s.loadIV.pending = s.pending := rfl
@[simp] theorem loadIV_returned : s.loadIV.returned = s.returned := rfl
@[simp] theorem loadIV_draws : s.loadIV.draws = s.draws := rfl

/-! ### `writeBlock` -/

@[simp] theorem writeBlock_H (i : BitVec 4) (v : Word) : (s.writeBlock i v).H = s.H := rfl
@[simp] theorem writeBlock_M (i : BitVec 4) (v : Word) : (s.writeBlock i v).M = s.M.put i v := rfl
@[simp] theorem writeBlock_W (i : BitVec 4) (v : Word) : (s.writeBlock i v).W = s.W := rfl
@[simp] theorem writeBlock_reg (i : BitVec 4) (v : Word) : (s.writeBlock i v).reg = s.reg := rfl
@[simp] theorem writeBlock_phase (i : BitVec 4) (v : Word) : (s.writeBlock i v).phase = s.phase := rfl
@[simp] theorem writeBlock_t (i : BitVec 4) (v : Word) : (s.writeBlock i v).t = s.t := rfl
@[simp] theorem writeBlock_written (i : BitVec 4) (v : Word) : (s.writeBlock i v).written = s.written.put i true := rfl
@[simp] theorem writeBlock_refused (i : BitVec 4) (v : Word) : (s.writeBlock i v).refused = s.refused := rfl
@[simp] theorem writeBlock_pending (i : BitVec 4) (v : Word) : (s.writeBlock i v).pending = s.pending := rfl
@[simp] theorem writeBlock_returned (i : BitVec 4) (v : Word) : (s.writeBlock i v).returned = s.returned := rfl
@[simp] theorem writeBlock_draws (i : BitVec 4) (v : Word) : (s.writeBlock i v).draws = s.draws := rfl

/-! ### `reply` -/

@[simp] theorem reply_H (v : Word) : (s.reply v).H = s.H := rfl
@[simp] theorem reply_M (v : Word) : (s.reply v).M = s.M := rfl
@[simp] theorem reply_W (v : Word) : (s.reply v).W = s.W := rfl
@[simp] theorem reply_reg (v : Word) : (s.reply v).reg = s.reg := rfl
@[simp] theorem reply_phase (v : Word) : (s.reply v).phase = s.phase := rfl
@[simp] theorem reply_t (v : Word) : (s.reply v).t = s.t := rfl
@[simp] theorem reply_written (v : Word) : (s.reply v).written = s.written := rfl
@[simp] theorem reply_refused (v : Word) : (s.reply v).refused = s.refused := rfl
@[simp] theorem reply_pending (v : Word) : (s.reply v).pending = s.pending := rfl
@[simp] theorem reply_returned (v : Word) : (s.reply v).returned = s.returned ++ [v] := rfl
@[simp] theorem reply_draws (v : Word) : (s.reply v).draws = s.draws := rfl

/-! ### `drew` -/

@[simp] theorem drew_H (n : Nat) : (s.drew n).H = s.H := rfl
@[simp] theorem drew_M (n : Nat) : (s.drew n).M = s.M := rfl
@[simp] theorem drew_W (n : Nat) : (s.drew n).W = s.W := rfl
@[simp] theorem drew_reg (n : Nat) : (s.drew n).reg = s.reg := rfl
@[simp] theorem drew_phase (n : Nat) : (s.drew n).phase = s.phase := rfl
@[simp] theorem drew_t (n : Nat) : (s.drew n).t = s.t := rfl
@[simp] theorem drew_written (n : Nat) : (s.drew n).written = s.written := rfl
@[simp] theorem drew_refused (n : Nat) : (s.drew n).refused = s.refused := rfl
@[simp] theorem drew_pending (n : Nat) : (s.drew n).pending = s.pending := rfl
@[simp] theorem drew_returned (n : Nat) : (s.drew n).returned = s.returned := rfl
@[simp] theorem drew_draws (n : Nat) : (s.drew n).draws = s.draws + n := rfl

/-! ### `setW` -/

@[simp] theorem setW_H (w : Bank Word 6) : (s.setW w).H = s.H := rfl
@[simp] theorem setW_M (w : Bank Word 6) : (s.setW w).M = s.M := rfl
@[simp] theorem setW_W (w : Bank Word 6) : (s.setW w).W = w := rfl
@[simp] theorem setW_reg (w : Bank Word 6) : (s.setW w).reg = s.reg := rfl
@[simp] theorem setW_phase (w : Bank Word 6) : (s.setW w).phase = s.phase := rfl
@[simp] theorem setW_t (w : Bank Word 6) : (s.setW w).t = s.t := rfl
@[simp] theorem setW_written (w : Bank Word 6) : (s.setW w).written = s.written := rfl
@[simp] theorem setW_refused (w : Bank Word 6) : (s.setW w).refused = s.refused := rfl
@[simp] theorem setW_pending (w : Bank Word 6) : (s.setW w).pending = s.pending := rfl
@[simp] theorem setW_returned (w : Bank Word 6) : (s.setW w).returned = s.returned := rfl
@[simp] theorem setW_draws (w : Bank Word 6) : (s.setW w).draws = s.draws := rfl

/-! ### `setReg` -/

@[simp] theorem setReg_H (r : Working) : (s.setReg r).H = s.H := rfl
@[simp] theorem setReg_M (r : Working) : (s.setReg r).M = s.M := rfl
@[simp] theorem setReg_W (r : Working) : (s.setReg r).W = s.W := rfl
@[simp] theorem setReg_reg (r : Working) : (s.setReg r).reg = r := rfl
@[simp] theorem setReg_phase (r : Working) : (s.setReg r).phase = s.phase := rfl
@[simp] theorem setReg_t (r : Working) : (s.setReg r).t = s.t := rfl
@[simp] theorem setReg_written (r : Working) : (s.setReg r).written = s.written := rfl
@[simp] theorem setReg_refused (r : Working) : (s.setReg r).refused = s.refused := rfl
@[simp] theorem setReg_pending (r : Working) : (s.setReg r).pending = s.pending := rfl
@[simp] theorem setReg_returned (r : Working) : (s.setReg r).returned = s.returned := rfl
@[simp] theorem setReg_draws (r : Working) : (s.setReg r).draws = s.draws := rfl

/-! ### `setH` -/

@[simp] theorem setH_H (h : Bank Word 3) : (s.setH h).H = h := rfl
@[simp] theorem setH_M (h : Bank Word 3) : (s.setH h).M = s.M := rfl
@[simp] theorem setH_W (h : Bank Word 3) : (s.setH h).W = s.W := rfl
@[simp] theorem setH_reg (h : Bank Word 3) : (s.setH h).reg = s.reg := rfl
@[simp] theorem setH_phase (h : Bank Word 3) : (s.setH h).phase = s.phase := rfl
@[simp] theorem setH_t (h : Bank Word 3) : (s.setH h).t = s.t := rfl
@[simp] theorem setH_written (h : Bank Word 3) : (s.setH h).written = s.written := rfl
@[simp] theorem setH_refused (h : Bank Word 3) : (s.setH h).refused = s.refused := rfl
@[simp] theorem setH_pending (h : Bank Word 3) : (s.setH h).pending = s.pending := rfl
@[simp] theorem setH_returned (h : Bank Word 3) : (s.setH h).returned = s.returned := rfl
@[simp] theorem setH_draws (h : Bank Word 3) : (s.setH h).draws = s.draws := rfl

/-! ### `applyReset` -/

@[simp] theorem applyReset_H : s.applyReset.H = IV := rfl
@[simp] theorem applyReset_M : s.applyReset.M = Bank.fill 0 := rfl
@[simp] theorem applyReset_W : s.applyReset.W = Bank.fill 0 := rfl
@[simp] theorem applyReset_reg : s.applyReset.reg = ⟨0, 0, 0, 0, 0, 0, 0, 0⟩ := rfl
@[simp] theorem applyReset_phase : s.applyReset.phase = .idle := rfl
@[simp] theorem applyReset_t : s.applyReset.t = 0#6 := rfl
@[simp] theorem applyReset_written : s.applyReset.written = Bank.fill false := rfl
@[simp] theorem applyReset_refused : s.applyReset.refused = none := rfl
@[simp] theorem applyReset_pending : s.applyReset.pending = s.pending := rfl
@[simp] theorem applyReset_returned : s.applyReset.returned = s.returned := rfl
@[simp] theorem applyReset_draws : s.applyReset.draws = s.draws := rfl

/-! ### `afterFetch` -/

@[simp] theorem afterFetch_H : s.afterFetch.H = s.H := rfl
@[simp] theorem afterFetch_M : s.afterFetch.M = s.M := rfl
@[simp] theorem afterFetch_W : s.afterFetch.W = s.W := rfl
@[simp] theorem afterFetch_reg : s.afterFetch.reg = s.reg := rfl
@[simp] theorem afterFetch_phase : s.afterFetch.phase = s.phase := rfl
@[simp] theorem afterFetch_t : s.afterFetch.t = s.t := rfl
@[simp] theorem afterFetch_written : s.afterFetch.written = s.written := rfl
@[simp] theorem afterFetch_refused : s.afterFetch.refused = s.refused := rfl
@[simp] theorem afterFetch_pending : s.afterFetch.pending = s.pending.tail := rfl
@[simp] theorem afterFetch_returned : s.afterFetch.returned = s.returned := rfl
@[simp] theorem afterFetch_draws : s.afterFetch.draws = s.draws := rfl

/-! ### `loopOr`: the loop on `t`, whose only effect is on the sequencer -/

@[simp] theorem loopOr_H (p q : Phase) (n : BitVec 6) : (s.loopOr p q n).H = s.H := by
  unfold loopOr; split <;> rfl
@[simp] theorem loopOr_M (p q : Phase) (n : BitVec 6) : (s.loopOr p q n).M = s.M := by
  unfold loopOr; split <;> rfl
@[simp] theorem loopOr_W (p q : Phase) (n : BitVec 6) : (s.loopOr p q n).W = s.W := by
  unfold loopOr; split <;> rfl
@[simp] theorem loopOr_reg (p q : Phase) (n : BitVec 6) : (s.loopOr p q n).reg = s.reg := by
  unfold loopOr; split <;> rfl
@[simp] theorem loopOr_written (p q : Phase) (n : BitVec 6) : (s.loopOr p q n).written = s.written := by
  unfold loopOr; split <;> rfl
@[simp] theorem loopOr_refused (p q : Phase) (n : BitVec 6) : (s.loopOr p q n).refused = s.refused := by
  unfold loopOr; split <;> rfl
@[simp] theorem loopOr_pending (p q : Phase) (n : BitVec 6) : (s.loopOr p q n).pending = s.pending := by
  unfold loopOr; split <;> rfl
@[simp] theorem loopOr_returned (p q : Phase) (n : BitVec 6) : (s.loopOr p q n).returned = s.returned := by
  unfold loopOr; split <;> rfl
@[simp] theorem loopOr_draws (p q : Phase) (n : BitVec 6) : (s.loopOr p q n).draws = s.draws := by
  unfold loopOr; split <;> rfl

theorem loopOr_of_lt (p q : Phase) {n : BitVec 6} (h : n < 63#6) :
    s.loopOr p q n = s.goto p (n + 1#6) := if_pos h

theorem loopOr_of_last (p q : Phase) : s.loopOr p q 63#6 = s.goto q 0#6 := rfl

/-- The loop ends exactly at `t = 63`. -/
theorem eq_last_of_not_lt {n : BitVec 6} (h : ¬ n < 63#6) : n = 63#6 := by bv_omega

end Sys2Proof.Machine.State

namespace Sys2Proof.Machine

@[simp] theorem RefusalReason.reason_refusal (r : RefusalReason) : r.refusal.reason = some r := by cases r <;> rfl

@[simp] theorem RefusalReason.refusal_inj {r q : RefusalReason} : r.refusal = q.refusal ↔ r = q :=
  ⟨fun h => by simpa using congrArg Refusal.reason h, fun h => h ▸ rfl⟩

@[simp] theorem RefusalReason.refusal_reservedOffset : RefusalReason.reservedOffset.refusal = .reservedOffset := rfl

@[simp] theorem RefusalReason.refusal_readCtrl : RefusalReason.readCtrl.refusal = .readCtrl := rfl

@[simp] theorem RefusalReason.refusal_writeStatus : RefusalReason.writeStatus.refusal = .writeStatus := rfl

@[simp] theorem RefusalReason.refusal_writeDigest : RefusalReason.writeDigest.refusal = .writeDigest := rfl

@[simp] theorem RefusalReason.refusal_ctrlReservedBits : RefusalReason.ctrlReservedBits.refusal = .ctrlReservedBits := rfl

@[simp] theorem RefusalReason.refusal_writeWhileBusy : RefusalReason.writeWhileBusy.refusal = .writeWhileBusy := rfl

@[simp] theorem RefusalReason.refusal_startUnwritten : RefusalReason.startUnwritten.refusal = .startUnwritten := rfl

@[simp] theorem RefusalReason.refusal_readUnwritten : RefusalReason.readUnwritten.refusal = .readUnwritten := rfl

end Sys2Proof.Machine
end

