-- ==== Sys2Proof/Laws/Ops.lean ====
section
/-!
SUPPORT. One lemma per shared operation: everything it can answer.
-/

namespace Sys2Proof.Machine.State

variable {s u : State} {r : Result} {i : BitVec 4}

theorem ready_iff : s.ready = true ↔ s.phase = .idle := by simp [ready]

theorem not_ready_iff : s.ready = false ↔ s.phase ≠ .idle := by simp [ready]

theorem allWritten_iff : s.allWritten = true ↔ ∀ i, s.written.get i = true := by
  simp [allWritten, Bank.eq_fill_iff]

theorem not_allWritten_iff : s.allWritten = false ↔ ∃ i, s.written.get i = false := by
  rw [← Bool.not_eq_true, allWritten_iff]; simp

/-- Everything `whenReady` can answer. -/
theorem whenReady_eq_next : s.whenReady r = .next u ↔ s.phase = .idle ∧ r = .next u := by
  unfold whenReady; rw [← ready_iff]; split <;> simp_all

theorem whenReady_eq_refused {x : Refusal} :
    s.whenReady r = .refused x ↔
      (s.phase ≠ .idle ∧ Refusal.writeWhileBusy = x) ∨ (s.phase = .idle ∧ r = .refused x) := by
  unfold whenReady; rw [Ne, ← ready_iff]; split <;> simp_all

theorem whenReady_eq_fault {x : Fault} : s.whenReady r = .fault x ↔ s.phase = .idle ∧ r = .fault x := by
  unfold whenReady; rw [← ready_iff]; split <;> simp_all

/-- Everything `whenBlockWritten` can answer. -/
theorem whenBlockWritten_eq_next :
    s.whenBlockWritten r = .next u ↔ (∀ i, s.written.get i = true) ∧ r = .next u := by
  unfold whenBlockWritten; rw [← allWritten_iff]; split <;> simp_all

theorem whenBlockWritten_eq_refused {x : Refusal} :
    s.whenBlockWritten r = .refused x ↔
      ((∃ i, s.written.get i = false) ∧ Refusal.startUnwritten = x) ∨
        ((∀ i, s.written.get i = true) ∧ r = .refused x) := by
  unfold whenBlockWritten; rw [← not_allWritten_iff, ← allWritten_iff]; split <;> simp_all

theorem whenBlockWritten_eq_fault {x : Fault} :
    s.whenBlockWritten r = .fault x ↔ (∀ i, s.written.get i = true) ∧ r = .fault x := by
  unfold whenBlockWritten; rw [← allWritten_iff]; split <;> simp_all

/-- Everything `whenWordWritten` can answer. -/
theorem whenWordWritten_eq_next :
    s.whenWordWritten i r = .next u ↔ s.written.get i = true ∧ r = .next u := by
  unfold whenWordWritten; split <;> simp_all

theorem whenWordWritten_eq_refused {x : Refusal} :
    s.whenWordWritten i r = .refused x ↔
      (s.written.get i = false ∧ Refusal.readUnwritten = x) ∨ (s.written.get i = true ∧ r = .refused x) := by
  unfold whenWordWritten; split <;> simp_all

theorem whenWordWritten_eq_fault {x : Fault} :
    s.whenWordWritten i r = .fault x ↔ s.written.get i = true ∧ r = .fault x := by
  unfold whenWordWritten; split <;> simp_all

/-- With every block word written, `LOADW` takes the block words themselves. -/
theorem loadWord_of_written (h : s.written.get i = true) : s.loadWord i = s.M.get i := if_pos h

end Sys2Proof.Machine.State
end

