-- ==== Sys2Proof/Laws/Exec.lean ====
section
/-!
SUPPORT. What each instruction answers: when it has a next state and which, and when it is refused.

One inversion lemma per instruction, so that proofs about all instructions never unfold a meaning.
-/

namespace Sys2Proof.Machine

variable {s u : State} {i : BitVec 4} {j : BitVec 3} {t : BitVec 6} {v : Word}

theorem execNopc_eq_next : exec .nopc s = .next u ↔ s.phase = .idle ∧ u = s := by
  simp [exec, execNopc, State.whenReady_eq_next, eq_comm (a := u)]

theorem execInit_eq_next : exec .init s = .next u ↔ s.phase = .idle ∧ u = s.loadIV := by
  simp [exec, execInit, State.whenReady_eq_next, eq_comm (a := u)]

theorem execStart_eq_next :
    exec .start s = .next u ↔
      s.phase = .idle ∧ (∀ i, s.written.get i = true) ∧ u = s.goto .load 0#6 := by
  simp [exec, execStart, State.whenReady_eq_next, State.whenBlockWritten_eq_next, eq_comm (a := u)]

theorem execInitstart_eq_next :
    exec .initstart s = .next u ↔
      s.phase = .idle ∧ (∀ i, s.written.get i = true) ∧ u = s.loadIV.goto .load 0#6 := by
  simp [exec, execInitstart, State.whenReady_eq_next, State.whenBlockWritten_eq_next, eq_comm (a := u)]

theorem execWrblk_eq_next :
    exec (.wrblk i v) s = .next u ↔ s.phase = .idle ∧ u = s.writeBlock i v := by
  simp [exec, execWrblk, State.whenReady_eq_next, eq_comm (a := u)]

theorem execRdblk_eq_next :
    exec (.rdblk i) s = .next u ↔ s.written.get i = true ∧ u = s.reply (s.M.get i) := by
  simp [exec, execRdblk, State.whenWordWritten_eq_next, eq_comm (a := u)]

theorem execRdh_eq_next :
    exec (.rdh j) s = .next u ↔ u = (s.reply (s.digestWord j)).drew (if s.ready then 0 else 1) := by
  simp [exec, execRdh, eq_comm (a := u)]

theorem execRdst_eq_next : exec .rdst s = .next u ↔ u = s.reply s.statusWord := by
  simp [exec, execRdst, eq_comm (a := u)]

theorem execLoadw_eq_next :
    exec .loadw s = .next u ↔
      u = ((s.setW (loadSchedule s.loadWord s.W)).drew (if s.allWritten then 0 else 16)).goto
        .expand 16#6 := by
  simp [exec, execLoadw, eq_comm (a := u)]

theorem execExpand_eq_next :
    exec (.expand t) s = .next u ↔
      16#6 ≤ t ∧ u = (s.setW (s.W.put t (scheduleWord s.W t))).loopOr .expand .copy t := by
  change execExpand t s = .next u ↔ _; unfold execExpand; split <;> simp_all [eq_comm (a := u)]

theorem execCopy_eq_next :
    exec .copy s = .next u ↔ u = (s.setReg (workingOf s.H)).goto .round 0#6 := by
  simp [exec, execCopy, eq_comm (a := u)]

theorem execRound_eq_next :
    exec (.round t) s = .next u ↔
      u = (s.setReg (rnd s.reg (K.get t) (s.W.get t))).loopOr .round .accum t := by
  simp [exec, execRound, eq_comm (a := u)]

theorem execAccum_eq_next :
    exec .accum s = .next u ↔ u = (s.setH (accumulate s.H s.reg)).goto .idle 0#6 := by
  simp [exec, execAccum, eq_comm (a := u)]

/-- Everything an instruction that has a next state can do, all instructions at once. -/
theorem exec_cases {i : Instr} (h : exec i s = .next u) :
    match i with
    | .nopc => s.phase = .idle ∧ u = s
    | .init => s.phase = .idle ∧ u = s.loadIV
    | .start => s.phase = .idle ∧ (∀ i, s.written.get i = true) ∧ u = s.goto .load 0#6
    | .initstart => s.phase = .idle ∧ (∀ i, s.written.get i = true) ∧ u = s.loadIV.goto .load 0#6
    | .wrblk i v => s.phase = .idle ∧ u = s.writeBlock i v
    | .rdblk i => u = s.reply (s.M.get i)
    | .rdh j => u = (s.reply (s.digestWord j)).drew (if s.ready then 0 else 1)
    | .rdst => u = s.reply s.statusWord
    | .loadw => u = ((s.setW (loadSchedule s.loadWord s.W)).drew (if s.allWritten then 0 else 16)).goto .expand 16#6
    | .expand t => u = (s.setW (s.W.put t (scheduleWord s.W t))).loopOr .expand .copy t
    | .copy => u = (s.setReg (workingOf s.H)).goto .round 0#6
    | .round t => u = (s.setReg (rnd s.reg (K.get t) (s.W.get t))).loopOr .round .accum t
    | .accum => u = (s.setH (accumulate s.H s.reg)).goto .idle 0#6 := by
  cases i with
  | nopc => exact execNopc_eq_next.mp h
  | init => exact execInit_eq_next.mp h
  | start => exact execStart_eq_next.mp h
  | initstart => exact execInitstart_eq_next.mp h
  | wrblk i v => exact execWrblk_eq_next.mp h
  | rdblk i => exact (execRdblk_eq_next.mp h).2
  | rdh i => exact execRdh_eq_next.mp h
  | rdst => exact execRdst_eq_next.mp h
  | loadw => exact execLoadw_eq_next.mp h
  | expand t => exact (execExpand_eq_next.mp h).2
  | copy => exact execCopy_eq_next.mp h
  | round t => exact execRound_eq_next.mp h
  | accum => exact execAccum_eq_next.mp h

/-! ### Cells -/

theorem loadSchedule_get_lt (m : BitVec 4 → Word) (w : Bank Word 6) (h : t < 16#6) :
    (loadSchedule m w).get t = m (t.extractLsb' 0 4) := by simp [loadSchedule, h]

theorem loadSchedule_get_ge (m : BitVec 4 → Word) (w : Bank Word 6) (h : ¬ t < 16#6) :
    (loadSchedule m w).get t = w.get t := by simp [loadSchedule, h]

theorem accumulate_get (h : Bank Word 3) (r : Working) (j : BitVec 3) :
    (accumulate h r).get j = h.get j + r.bank.get j := by simp [accumulate, add32]

end Sys2Proof.Machine
end

