-- ==== Sys2Proof/Laws/Compression.lean ====
section
/-!
SUPPORT. Laws of the schedule and of the invariant: the words of `SCHED` by index, and where the invariant comes
from. Cite these instead of unfolding `sched` or `rounds`.
-/

namespace Sys2Proof.Machine

/-! ### The schedule -/

/-- A schedule word depends on earlier words only (`20_memory.md` R41). -/
theorem scheduleWord_congr {w w' : Bank Word 6} {t : BitVec 6} (ht : 16#6 ≤ t)
    (h : ∀ j : BitVec 6, j.toNat < t.toNat → w.get j = w'.get j) : scheduleWord w t = scheduleWord w' t := by
  unfold scheduleWord
  rw [h (t - 16#6) (by bv_omega), h (t - 15#6) (by bv_omega), h (t - 7#6) (by bv_omega), h (t - 2#6) (by bv_omega)]

/-- Later steps of the expander leave the words already computed alone. -/
theorem expandFirst_stable (w : Bank Word 6) {n k : Nat} (hn : n ≤ k) (hk : k ≤ 48) {j : BitVec 6}
    (hj : j.toNat < 16 + n) : (expandFirst w k).get j = (expandFirst w n).get j := by
  induction k with
  | zero => rw [show n = 0 by omega]
  | succ k ih =>
    by_cases he : n = k + 1
    · rw [he]
    · rw [← ih (by omega) (by omega), expandFirst]
      refine Bank.get_put_ne _ _ fun e => ?_
      have := congrArg BitVec.toNat e
      simp at this; omega

/-- The first sixteen words of `SCHED(m)` (`41_schedule.md` R102). -/
theorem sched_get_lt (m : Bank Word 4) {j : BitVec 6} (hj : j < 16#6) :
    (sched m).get j = m.get (j.extractLsb' 0 4) := by
  unfold sched
  rw [expandFirst_stable _ (Nat.zero_le 48) le_rfl (by bv_omega), expandFirst, loadSchedule_get_lt _ _ hj]

/-- The other 48 words of `SCHED(m)` (`41_schedule.md` R102). -/
theorem sched_get_ge (m : Bank Word 4) {t : BitVec 6} (ht : 16#6 ≤ t) :
    (sched m).get t = scheduleWord (sched m) t := by
  have hlt := t.isLt
  have h16 : 16 ≤ t.toNat := by bv_omega
  have e : BitVec.ofNat 6 (16 + (t.toNat - 16)) = t := by
    rw [show 16 + (t.toNat - 16) = t.toNat by omega]; simp
  unfold sched
  rw [expandFirst_stable _ (n := t.toNat - 16 + 1) (by omega) le_rfl (by omega)]
  conv => lhs; rw [expandFirst]
  simp only [e, Bank.get_put_same]
  refine scheduleWord_congr ht fun j hj => ?_
  rw [expandFirst_stable _ (n := t.toNat - 16) (by omega) le_rfl (by omega)]

/-! ### The rounds -/

@[simp] theorem rounds_zero (r : Working) (w : Bank Word 6) : rounds r w 0 = r := rfl

theorem rounds_succ (r : Working) (w : Bank Word 6) (n : Nat) :
    rounds r w (n + 1) = rnd (rounds r w n) (K.get (BitVec.ofNat 6 n)) (w.get (BitVec.ofNat 6 n)) := rfl

/-- One more round, by the index of the round (`42_compression.md` R113). -/
theorem rounds_toNat_succ (r : Working) (w : Bank Word 6) (t : BitVec 6) :
    rounds r w (t.toNat + 1) = rnd (rounds r w t.toNat) (K.get t) (w.get t) := by
  rw [rounds_succ, BitVec.ofNat_toNat, BitVec.setWidth_eq]

/-! ### The invariant -/

/-- The invariant speaks of the engine alone. -/
theorem State.Inv.congr {s u : State} (h : s.Inv) (e1 : u.H = s.H) (e2 : u.M = s.M) (e3 : u.W = s.W)
    (e4 : u.reg = s.reg) (e5 : u.phase = s.phase) (e6 : u.t = s.t) (e7 : u.written = s.written) : u.Inv := by
  constructor
  · rw [e5, e6]; exact h.legal
  · rw [e5, e7]; exact h.written
  · rw [e5, e6, e3, e2]; exact h.schedule
  · rw [e5, e6, e4, e1, e2]; exact h.registers

/-- In `(IDLE, 0)` the invariant asks nothing more. -/
theorem State.Inv.of_idle {u : State} (hp : u.phase = .idle) (ht : u.t = 0#6) : u.Inv := by
  constructor
  · rw [hp, ht]; rfl
  · exact fun h => absurd hp h
  · intro j hj; rw [hp] at hj; exact absurd hj (Nat.not_lt_zero _)
  · intro n hn; rw [hp] at hn; cases hn

end Sys2Proof.Machine
end

