-- ==== Sys2Proof/Laws/Decode.lean ====
section
/-!
SUPPORT. Laws of the encodings: the fields of a transaction word and of a selector, and the register window.
-/

namespace Sys2Proof

/-! ### Fields -/

/-- The bits of a transaction word. -/
theorem getLsbD_busWord (rw : Bool) (off : BitVec 6) (v : Word) (n : Nat) :
    (busWord rw off v).getLsbD n =
      if n < 32 then v.getLsbD n else if n < 38 then off.getLsbD (n - 32) else decide (n = 38) && rw := by
  have h1 : (busWord rw off v).getLsbD n =
      if n < 32 then v.getLsbD n else (BitVec.ofBool rw ++ off).getLsbD (n - 32) :=
    BitVec.getLsbD_append
  have h2 : (BitVec.ofBool rw ++ off).getLsbD (n - 32) =
      if n - 32 < 6 then off.getLsbD (n - 32) else (BitVec.ofBool rw).getLsbD (n - 32 - 6) :=
    BitVec.getLsbD_append
  rw [h1, h2]
  by_cases h : n < 32
  · simp [h]
  · by_cases h' : n < 38
    · simp [h, h', show n - 32 < 6 by omega]
    · simp [h, h', show ¬ n - 32 < 6 by omega]
      by_cases h'' : n = 38
      · subst h''; simp
      · simp [h'', show ¬ (n - 32 - 6 = 0) by omega]

@[simp] theorem busWrites_busWord (rw : Bool) (off : BitVec 6) (v : Word) :
    busWrites (busWord rw off v) = rw := by
  rw [busWrites, getLsbD_busWord]; simp

@[simp] theorem busOffset_busWord (rw : Bool) (off : BitVec 6) (v : Word) :
    busOffset (busWord rw off v) = off := by
  ext n hn
  simp only [busOffset, BitVec.getElem_extractLsb', getLsbD_busWord]
  simp [show ¬ 32 + n < 32 by omega, show 32 + n < 38 by omega, BitVec.getLsbD_eq_getElem, hn]

@[simp] theorem busData_busWord (rw : Bool) (off : BitVec 6) (v : Word) :
    busData (busWord rw off v) = v := by
  ext n hn
  simp only [busData, BitVec.getElem_extractLsb', getLsbD_busWord]
  simp [hn]

/-- A transaction word is its three fields. -/
theorem busWord_fields (w : BitVec 39) : busWord (busWrites w) (busOffset w) (busData w) = w := by
  apply BitVec.eq_of_getLsbD_eq
  intro n hn
  rw [getLsbD_busWord]
  simp only [busOffset, busData, busWrites, BitVec.getLsbD_extractLsb']
  split
  · next h => simp [h]
  · split
    · next h h' => simp [show n - 32 < 6 by omega, show 32 + (n - 32) = n by omega]
    · next h h' => simp [show n = 38 by omega]

@[simp] theorem selIndex_append (c : BitVec 3) (t : BitVec 6) : selIndex (c ++ t) = t := by
  have h (n : Nat) : BitVec.getLsbD (w := 9) (c ++ t) n =
      if n < 6 then t.getLsbD n else c.getLsbD (n - 6) := BitVec.getLsbD_append
  ext n hn
  simp only [selIndex, BitVec.getElem_extractLsb', h]
  simp [hn]

@[simp] theorem selPhase_append (c : BitVec 3) (t : BitVec 6) : selPhase (c ++ t) = phaseOfCode c := by
  have h (n : Nat) : BitVec.getLsbD (w := 9) (c ++ t) n =
      if n < 6 then t.getLsbD n else c.getLsbD (n - 6) := BitVec.getLsbD_append
  unfold selPhase
  congr 1
  ext n hn
  simp only [BitVec.getElem_extractLsb', h]
  simp [BitVec.getLsbD_eq_getElem, hn]

/-! ### Phases -/

@[simp] theorem phaseOfCode_code (p : Phase) : phaseOfCode p.code = some p := by
  cases p <;> rfl

theorem code_of_phaseOfCode {c : BitVec 3} {p : Phase} (h : phaseOfCode c = some p) : p.code = c := by
  revert c p; decide

/-- The selector of a phase and an index decodes as their micro-operation. -/
@[simp] theorem decodeSeq_selector (p : Phase) (t : BitVec 6) :
    decodeSeq (selector p t) = microOp p t := by
  simp [decodeSeq, selector]

/-! ### The register window -/

@[simp] theorem windowReg_offset (r : WindowReg) : windowReg r.offset = some r := by
  cases r with
  | ctrl => rfl
  | status => rfl
  | block i => revert i; decide
  | digest i => revert i; decide

theorem offset_of_windowReg {off : BitVec 6} {r : WindowReg} (h : windowReg off = some r) :
    r.offset = off := by
  have : ∀ off : BitVec 6, ∀ r ∈ windowReg off, r.offset = off := by decide
  exact this off r h

/-- The reserved offsets (`20_memory.md` R44). -/
theorem windowReg_eq_none_iff (off : BitVec 6) :
    windowReg off = none ↔
      (0x02 ≤ off.toNat ∧ off.toNat ≤ 0x0F) ∨ (0x28 ≤ off.toNat ∧ off.toNat ≤ 0x3F) := by
  revert off; decide

/-- `BLOCKi` stands at `0x10 + i`. -/
theorem block_offset_toNat (i : BitVec 4) : (WindowReg.block i).offset.toNat = 0x10 + i.toNat := by
  revert i; decide

/-- `DIGESTi` stands at `0x20 + i`. -/
theorem digest_offset_toNat (i : BitVec 3) : (WindowReg.digest i).offset.toNat = 0x20 + i.toNat := by
  revert i; decide

/-- Decoding a transaction word by its fields. -/
theorem decodeBus_busWord (rw : Bool) (off : BitVec 6) (v : Word) :
    decodeBus (busWord rw off v) =
      match windowReg off, rw with
      | none, _ => .error .reservedOffset
      | some .ctrl, false => .error .readCtrl
      | some .ctrl, true => decodeCtrl v
      | some .status, false => .ok .rdst
      | some .status, true => .error .writeStatus
      | some (.block i), false => .ok (.rdblk i)
      | some (.block i), true => .ok (.wrblk i v)
      | some (.digest i), false => .ok (.rdh i)
      | some (.digest _), true => .error .writeDigest := by
  have h := decodeBus.eq_1 (busWord rw off v)
  rw [busOffset_busWord, busWrites_busWord, busData_busWord] at h
  exact h

/-- The words of `CTRL` by value (`30_encoding.md` R62). -/
theorem decodeCtrl_eq (v : Word) :
    decodeCtrl v =
      if v = 0x00000000#32 then .ok .nopc
      else if v = 0x00000001#32 then .ok .init
      else if v = 0x00000002#32 then .ok .start
      else if v = 0x00000003#32 then .ok .initstart
      else .error .ctrlReservedBits := by
  have hi : (v.extractLsb' 2 30).toNat = v.toNat / 4 := by
    simp [BitVec.extractLsb'_toNat, Nat.shiftRight_eq_div_pow]
    omega
  have lo : (v.extractLsb' 0 2).toNat = v.toNat % 4 := by
    simp [BitVec.extractLsb'_toNat]
  unfold decodeCtrl
  simp only [← BitVec.toNat_inj, ne_eq, hi, lo, BitVec.toNat_ofNat]
  norm_num
  split_ifs <;> first | rfl | omega

/-- The words of the three indexed commands decode to them. -/
theorem decodeBus_wrblk (i : BitVec 4) (v : Word) :
    decodeBus (busWord true (0b01#2 ++ i) v) = .ok (.wrblk i v) := by
  rw [decodeBus_busWord, show (0b01#2 ++ i) = (WindowReg.block i).offset from rfl, windowReg_offset]

theorem decodeBus_rdblk (i : BitVec 4) (v : Word) :
    decodeBus (busWord false (0b01#2 ++ i) v) = .ok (.rdblk i) := by
  rw [decodeBus_busWord, show (0b01#2 ++ i) = (WindowReg.block i).offset from rfl, windowReg_offset]

theorem decodeBus_rdh (i : BitVec 3) (v : Word) :
    decodeBus (busWord false (0b100#3 ++ i) v) = .ok (.rdh i) := by
  rw [decodeBus_busWord, show (0b100#3 ++ i) = (WindowReg.digest i).offset from rfl, windowReg_offset]

/-! ### Transaction words as data -/

/-- The conjunction of two transaction words, field by field. -/
theorem busWord_and (a b : Bool) (o p : BitVec 6) (v w : Word) :
    busWord a o v &&& busWord b p w = busWord (a && b) (o &&& p) (v &&& w) := by
  apply BitVec.eq_of_getLsbD_eq
  intro n hn
  simp only [BitVec.getLsbD_and, getLsbD_busWord]
  split
  · rfl
  · split
    · rfl
    · cases decide (n = 38) <;> simp

/-- Two transaction words are equal when their fields are. -/
theorem busWord_inj {a b : Bool} {o p : BitVec 6} {v w : Word} :
    busWord a o v = busWord b p w ↔ a = b ∧ o = p ∧ v = w := by
  refine ⟨fun h => ⟨?_, ?_, ?_⟩, ?_⟩
  · simpa using congrArg busWrites h
  · simpa using congrArg busOffset h
  · simpa using congrArg busData h
  · rintro ⟨rfl, rfl, rfl⟩; rfl

/-- A transaction word as a number. -/
theorem busWord_toNat (rw : Bool) (off : BitVec 6) (v : Word) :
    (busWord rw off v).toNat = rw.toNat * 2 ^ 38 + off.toNat * 2 ^ 32 + v.toNat := by
  unfold busWord
  have h1 := off.isLt
  have h2 := v.isLt
  erw [BitVec.toNat_append, ← Nat.shiftLeft_add_eq_or_of_lt h2, BitVec.toNat_append,
    ← Nat.shiftLeft_add_eq_or_of_lt h1]
  simp [Nat.shiftLeft_eq]
  omega

/-- The transaction word with a given number. -/
theorem ofNat_eq_busWord {rw : Bool} {off : BitVec 6} {v : Word} {n : Nat}
    (h : n = rw.toNat * 2 ^ 38 + off.toNat * 2 ^ 32 + v.toNat) : BitVec.ofNat 39 n = busWord rw off v := by
  rw [h, ← busWord_toNat]; simp

end Sys2Proof
end

