-- ==== Sys2Proof/Laws/Step.lean ====
section
/-!
SUPPORT. What one step can do.
-/

namespace Sys2Proof.Machine

variable {s u : State}

/-- Everything a step that goes on can be: a reset, an instruction, or the engine's empty turn. -/
theorem step_cases (h : step s = .next u) :
    (s.nextMove = .reset ∧ u = s.afterFetch.applyReset) ∨
      (∃ i, s.nextMove = .run i ∧ exec i s.afterFetch = .next u) ∨
      (s.nextMove = .idle ∧ u = s.afterFetch) := by
  unfold step at h
  split at h
  next e => cases h; exact .inl ⟨e, rfl⟩
  next i e => exact .inr (.inl ⟨i, e, h⟩)
  next e => cases h; exact .inr (.inr ⟨e, rfl⟩)
  next => cases h
  next => cases h

theorem step_of_run {i : Instr} (h : s.nextMove = .run i) : step s = exec i s.afterFetch := by
  simp only [step, h]

theorem step_of_reset (h : s.nextMove = .reset) : step s = .next s.afterFetch.applyReset := by
  simp only [step, h]

theorem step_of_idle (h : s.nextMove = .idle) : step s = .next s.afterFetch := by
  simp only [step, h]

theorem step_of_refuse {r : RefusalReason} (h : s.nextMove = .refuse r) : step s = refuse r := by
  simp only [step, h]

theorem step_of_unreachable (h : s.nextMove = .unreachable) : step s = .fault .unreachableSelector := by
  simp only [step, h]

/-- Taking the oldest event off changes nothing a meaning reads, so the selector and the flags stay. -/
theorem afterFetch_selector (s : State) : s.afterFetch.selector = s.selector := rfl

@[simp] theorem afterFetch_ready (s : State) : s.afterFetch.ready = s.ready := rfl

end Sys2Proof.Machine
end

