-- ==== Sys2Proof/Laws/Move.lean ====
section
/-!
SUPPORT. What the next move can be: which instructions the decoders give, and where a move comes from.
-/

namespace Sys2Proof.Machine

variable {s : State} {i : Instr} {r : RefusalReason}

/-- The micro-operation a legal selector names, row by row (`30_encoding.md` R67). -/
theorem microOp_eq_ok {p : Phase} {t : BitVec 6} :
    microOp p t = .ok i ↔
      (p = .load ∧ t = 0#6 ∧ i = .loadw) ∨ (p = .expand ∧ 16#6 ≤ t ∧ i = .expand t) ∨
        (p = .copy ∧ t = 0#6 ∧ i = .copy) ∨ (p = .round ∧ i = .round t) ∨
        (p = .accum ∧ t = 0#6 ∧ i = .accum) := by
  cases p <;> simp [microOp, eq_comm (a := i)] <;> split <;> simp_all

theorem isMicroOp_of_microOp {p : Phase} {t : BitVec 6} (h : microOp p t = .ok i) :
    isMicroOp i = true ∧ WellFormed i := by
  rcases microOp_eq_ok.mp h with ⟨-, -, rfl⟩ | ⟨-, h, rfl⟩ | ⟨-, -, rfl⟩ | ⟨-, rfl⟩ | ⟨-, -, rfl⟩ <;>
    simp_all [isMicroOp]

/-- What a transaction word can decode to: a command, from the register and the direction its fields name. -/
theorem decodeBus_eq_ok {w : BitVec 39} :
    decodeBus w = .ok i ↔
      (windowReg (busOffset w) = some .ctrl ∧ busWrites w = true ∧ decodeCtrl (busData w) = .ok i) ∨
        (windowReg (busOffset w) = some .status ∧ busWrites w = false ∧ i = .rdst) ∨
        (∃ j, windowReg (busOffset w) = some (.block j) ∧ busWrites w = false ∧ i = .rdblk j) ∨
        (∃ j, windowReg (busOffset w) = some (.block j) ∧ busWrites w = true ∧ i = .wrblk j (busData w)) ∨
        (∃ j, windowReg (busOffset w) = some (.digest j) ∧ busWrites w = false ∧ i = .rdh j) := by
  unfold decodeBus
  split <;> simp_all [eq_comm (a := i)]

theorem decodeCtrl_eq_ok {v : Word} :
    decodeCtrl v = .ok i ↔
      (v = 0#32 ∧ i = .nopc) ∨ (v = 1#32 ∧ i = .init) ∨ (v = 2#32 ∧ i = .start) ∨
        (v = 3#32 ∧ i = .initstart) := by
  rw [decodeCtrl_eq]
  split_ifs <;> simp_all [eq_comm (a := i)]

/-- A transaction word that decodes is a write exactly when its command is a write, and never a micro-operation. -/
theorem kind_of_decodeBus {w : BitVec 39} (h : decodeBus w = .ok i) :
    isMicroOp i = false ∧ isWrite i = busWrites w ∧ isRead i = !busWrites w := by
  rcases decodeBus_eq_ok.mp h with ⟨-, e, h⟩ | ⟨-, e, rfl⟩ | ⟨j, -, e, rfl⟩ | ⟨j, -, e, rfl⟩ | ⟨j, -, e, rfl⟩
  · rcases decodeCtrl_eq_ok.mp h with ⟨-, rfl⟩ | ⟨-, rfl⟩ | ⟨-, rfl⟩ | ⟨-, rfl⟩ <;>
      simp [isMicroOp, isWrite, isRead, e]
  all_goals simp [isMicroOp, isWrite, isRead, e]

theorem decode_bus (w : BitVec 39) : decode (.bus w) = (decodeBus w).mapError .bus := rfl

theorem decode_seq (x : BitVec 9) : decode (.seq x) = (decodeSeq x).mapError .seq := rfl

theorem decode_bus_eq_ok {w : BitVec 39} : decode (.bus w) = .ok i ↔ decodeBus w = .ok i := by
  rw [decode_bus]; cases decodeBus w <;> simp [Except.mapError]

theorem decode_seq_eq_ok {x : BitVec 9} : decode (.seq x) = .ok i ↔ decodeSeq x = .ok i := by
  rw [decode_seq]; cases decodeSeq x <;> simp [Except.mapError]

theorem busMove_eq (w : BitVec 39) :
    busMove w = match decodeBus w with
      | .ok i => .run i
      | .error r => .refuse (refusalOf r) := by
  unfold busMove; rw [decode_bus]; cases decodeBus w <;> simp [Except.mapError]

theorem seqMove_eq (p : Phase) (t : BitVec 6) :
    seqMove (selector p t) = match microOp p t with
      | .ok i => .run i
      | .error .noMicroOp => .idle
      | .error .unreachable => .unreachable := by
  unfold seqMove
  rw [decode_seq, decodeSeq_selector]
  cases h : microOp p t with
  | ok i => simp [Except.mapError]
  | error e => cases e <;> simp [Except.mapError]

/-- A transaction word asks to run a command or is refused. -/
theorem busMove_eq_run {w : BitVec 39} : busMove w = .run i ↔ decodeBus w = .ok i := by
  rw [busMove_eq]; cases decodeBus w <;> simp

theorem seqMove_eq_run {p : Phase} {t : BitVec 6} :
    seqMove (selector p t) = .run i ↔ microOp p t = .ok i := by
  rw [seqMove_eq]; split <;> simp_all

/-- Where an instruction comes from: a pending transaction word in an unmarked run, or the sequencer's selector on
the engine's turn. -/
theorem nextMove_eq_run :
    s.nextMove = .run i ↔ s.refused = none ∧
      ((∃ w rest, s.pending = .bus w :: rest ∧ decodeBus w = .ok i) ∨
        ((s.pending = [] ∨ ∃ rest, s.pending = .engine :: rest) ∧ microOp s.phase s.t = .ok i)) := by
  unfold State.nextMove
  split <;> rename_i e <;> simp only [e, State.unlessMarked]
  · simp
  all_goals
    cases s.refused <;> simp [busMove_eq_run, State.selector, seqMove_eq_run]

/-- An instruction the machine runs is a micro-operation exactly when it comes from the selector. -/
theorem microOp_of_nextMove (h : s.nextMove = .run i) (hm : isMicroOp i = true) :
    microOp s.phase s.t = .ok i := by
  rcases (nextMove_eq_run.mp h).2 with ⟨w, rest, -, hd⟩ | ⟨-, hd⟩
  · simp [(kind_of_decodeBus hd).1] at hm
  · exact hd

theorem nextMove_of_bus {w : BitVec 39} {rest : List Event} (hr : s.refused = none)
    (hp : s.pending = .bus w :: rest) : s.nextMove = busMove w := by
  simp [State.nextMove, State.unlessMarked, hr, hp]

theorem nextMove_of_engine {rest : List Event} (hr : s.refused = none)
    (hp : s.pending = .engine :: rest ∨ (s.pending = [] ∧ rest = [])) :
    s.nextMove = seqMove (selector s.phase s.t) := by
  rcases hp with hp | ⟨hp, -⟩ <;> simp [State.nextMove, State.unlessMarked, hr, hp, State.selector]

/-- Only a pending reset is a reset. -/
theorem nextMove_eq_reset : s.nextMove = .reset ↔ ∃ rest, s.pending = .reset :: rest := by
  unfold State.nextMove
  split <;> rename_i e <;> simp only [e, State.unlessMarked]
  · simp
  · cases s.refused with
    | none => simp [busMove_eq]; split <;> simp
    | some r => simp
  all_goals
    cases s.refused with
    | none => simp [State.selector, seqMove_eq]; split <;> simp
    | some r => simp

/-- A marked run refuses every move but a reset. -/
theorem nextMove_of_marked (hr : s.refused = some r) (hp : s.pending.head? ≠ some .reset) :
    s.nextMove = .refuse r := by
  unfold State.nextMove
  split <;> rename_i e <;> simp_all [State.unlessMarked]

end Sys2Proof.Machine
end

