-- ==== Sys2Proof/Laws/Run.lean ====
section
/-!
SUPPORT. Laws of runs: how they compose, and what every run keeps.
-/

namespace Sys2Proof.Machine

variable {s u v : State} {m n : Nat}

theorem run_succ (n : Nat) (s : State) :
    run (n + 1) s = match step s with
      | .next s' => run n s'
      | .fault r => .fault r
      | .refused r => .refused r := rfl

/-- A run goes on from where its first part ends. -/
theorem run_add (h : run m s = .next u) : run (m + n) s = run n u := by
  induction m generalizing s with
  | zero => cases h; simp
  | succ m ih =>
    rw [show m + 1 + n = (m + n) + 1 by omega, run_succ]
    rw [run_succ] at h
    split at h <;> first | cases h | (rename_i e; exact ih h)

theorem run_one (h : step s = .next u) : run 1 s = .next u := by simp [run, h]

theorem run_snoc (h : run n s = .next u) (h' : step u = .next v) : run (n + 1) s = .next v := by
  rw [run_add h]; exact run_one h'

/-- What has been returned to the host stays returned. -/
theorem step_returned (h : step s = .next u) : ∃ a, u.returned = s.returned ++ a := by
  rcases step_cases h with ⟨e, rfl⟩ | ⟨i, e, h⟩ | ⟨e, rfl⟩
  · exact ⟨[], by simp⟩
  · have hi := exec_cases h
    cases i <;> simp only at hi
    case rdblk => exact ⟨_, by rw [hi]; rfl⟩
    case rdh => exact ⟨_, by rw [hi]; rfl⟩
    case rdst => exact ⟨_, by rw [hi]; rfl⟩
    all_goals refine ⟨[], ?_⟩; first | (rw [hi]; simp) | (rw [hi.2]; simp) | (rw [hi.2.2]; simp)
  · exact ⟨[], by simp⟩

theorem run_returned (h : run n s = .next u) : ∃ a, u.returned = s.returned ++ a := by
  induction n generalizing s with
  | zero => cases h; exact ⟨[], by simp⟩
  | succ n ih =>
    rw [run_succ] at h
    split at h <;> first | cases h | skip
    rename_i e
    obtain ⟨a, ha⟩ := step_returned e
    obtain ⟨b, hb⟩ := ih h
    exact ⟨a ++ b, by rw [hb, ha, List.append_assoc]⟩

end Sys2Proof.Machine
end

