-- ==== Sys2Proof/Laws/Host.lean ====
section
/-!
SUPPORT. Laws of host programs: what one step of a run can be for the program it performs, and how programs compose.
-/

namespace Sys2Proof.Machine

variable {p q r : List HostAction} {s u : State} {i : Instr} {n : Nat}

/-! ### One step -/

theorem markedStep_of_next (h : step s = .next u) : markedStep s = u := by simp [markedStep, h]

theorem markedStep_of_refuse {x : RefusalReason} (h : step s = refuse x) :
    markedStep s = { s.afterFetch with refused := some x } := by simp [markedStep, h]

theorem afterCommand_issue {j : Instr} :
    afterCommand (.issue j :: p) i s u = some r ↔ i = j ∧ r = p := by
  simp only [afterCommand]; split <;> simp_all [eq_comm]

theorem afterCommand_wait :
    afterCommand (.wait :: p) i s u = some r ↔
      i = .rdst ∧ ((saysReady s u = true ∧ r = p) ∨ (saysReady s u = false ∧ r = .wait :: p)) := by
  simp only [afterCommand]; split <;> cases saysReady s u <;> simp_all [eq_comm]

/-- Everything that one step of an unmarked run can be for the program it performs: the engine's turn, or a command
of the program. -/
theorem afterStep_cases (hr : s.refused = none) (h : afterStep p s = some q) :
    ((s.pending = [] ∨ s.pending.head? = some .engine) ∧ q = p) ∨
      ∃ i, s.nextMove = .run i ∧ step s = exec i s.afterFetch ∧ afterCommand p i s (markedStep s) = some q := by
  unfold afterStep at h
  split at h
  · next w rest hp =>
    split at h
    · next i hd =>
      have hm := (nextMove_of_bus hr hp).trans (busMove_eq_run.mpr (decode_bus_eq_ok.mp hd))
      exact .inr ⟨i, hm, step_of_run hm, h⟩
    · cases h
  · cases h
  · next hp => cases h; exact .inl ⟨.inr (by simp [hp]), rfl⟩
  · next hp => cases h; exact .inl ⟨.inl hp, rfl⟩

/-- A `WAIT` is over exactly when `RDST` finds `READY = 1`. -/
theorem saysReady_rdst (h : step s = exec .rdst s.afterFetch) : saysReady s (markedStep s) = s.ready := by
  have hw : s.afterFetch.statusWord.getLsbD 0 = s.ready := by
    cases hr : s.ready <;> simp [State.statusWord, hr]
  rw [markedStep_of_next (h.trans (execRdst_eq_next.mpr rfl)), ← hw]
  simp [saysReady, answer, State.reply, State.afterFetch]

/-! ### Programs -/

theorem performs_zero : performs p 0 s = true ↔ p = [] := by simp [performs, afterSteps]

theorem performs_succ :
    performs p (n + 1) s = true ↔ ∃ q, afterStep p s = some q ∧ performs q n (markedStep s) = true := by
  simp [performs, afterSteps, Option.bind_eq_some_iff]

theorem afterCommand_append (hp : p ≠ []) :
    afterCommand (p ++ q) i s u = (afterCommand p i s u).map (· ++ q) := by
  match p, hp with
  | .issue j :: p, _ => simp only [List.cons_append, afterCommand]; split <;> simp
  | .wait :: p, _ => simp only [List.cons_append, afterCommand]; split <;> [split; skip] <;> simp

theorem afterStep_append (hp : p ≠ []) : afterStep (p ++ q) s = (afterStep p s).map (· ++ q) := by
  unfold afterStep
  split
  · split
    · exact afterCommand_append hp
    · rfl
  all_goals rfl

/-- A run that performs two programs one after the other performs the first, and then the second. -/
theorem performs_append (h : performs (p ++ q) n s = true) :
    ∃ m k, n = m + k ∧ performs p m s = true ∧ performs q k (markedRun m s) = true := by
  induction n generalizing p s with
  | zero =>
    obtain ⟨rfl, rfl⟩ := List.append_eq_nil_iff.mp (performs_zero.mp h)
    exact ⟨0, 0, rfl, performs_zero.mpr rfl, performs_zero.mpr rfl⟩
  | succ n ih =>
    by_cases hp : p = []
    · subst hp; exact ⟨0, n + 1, by omega, performs_zero.mpr rfl, h⟩
    · obtain ⟨x, hx, hn⟩ := performs_succ.mp h
      rw [afterStep_append hp, Option.map_eq_some_iff] at hx
      obtain ⟨y, hy, rfl⟩ := hx
      obtain ⟨m, k, rfl, h1, h2⟩ := ih hn
      exact ⟨m + 1, k, by omega, performs_succ.mpr ⟨y, hy, h1⟩, h2⟩

theorem markedRun_of_run (h : run n s = .next u) : markedRun n s = u := by
  induction n generalizing s with
  | zero => cases h; rfl
  | succ n ih =>
    rw [run_succ] at h
    split at h <;> first | cases h | skip
    next e => rw [markedRun, markedStep_of_next e]; exact ih h

/-! ### Commands, and `WAIT`

`P` is what the run keeps: on the engine's turns, and through the commands of the program. -/

/-- Commands that each have the effect `f` on a state with `P`, while the engine's turns have none: their effects one
after another, wherever the turns fall between them. -/
theorem run_of_performs_commands {P : State → Prop} {f : Instr → State → State} (hr : ∀ s, P s → s.refused = none)
    (ht : ∀ s, P s → (s.pending = [] ∨ s.pending.head? = some .engine) → step s = .next s.afterFetch)
    (ha : ∀ s, P s → P s.afterFetch)
    (hf : ∀ i (s : State) es, f i { s with pending := es } = { f i s with pending := es })
    {l : List Instr} (he : ∀ i ∈ l, ∀ s, P s → exec i s = .next (f i s) ∧ P (f i s))
    (hs : P s) (h : performs (commands l) n s = true) :
    run n s = .next { l.foldl (fun s i => f i s) s with pending := s.pending.drop n } := by
  have hfold : ∀ (l : List Instr) (s : State) (es es' : List Event),
      ({ l.foldl (fun s i => f i s) { s with pending := es } with pending := es' } : State) =
        { l.foldl (fun s i => f i s) s with pending := es' } := by
    intro l
    induction l with
    | nil => intros; rfl
    | cons i l ih => intro s es es'; rw [List.foldl_cons, List.foldl_cons, hf]; exact ih _ _ _
  induction n generalizing l s with
  | zero =>
    obtain rfl : l = [] := by simpa [commands] using performs_zero.mp h
    rfl
  | succ n ih =>
    obtain ⟨q, hq, hn⟩ := performs_succ.mp h
    rw [run_succ]
    rcases afterStep_cases (hr s hs) hq with ⟨hp, rfl⟩ | ⟨i, -, hst, hc⟩
    · have h1 := ht s hs hp
      rw [markedStep_of_next h1] at hn
      rw [h1]
      refine (ih he (ha s hs) hn).trans ?_
      rw [show s.afterFetch = { s with pending := s.pending.tail } from rfl, hfold]
      simp
    · cases l with
      | nil => cases hc
      | cons j l =>
        obtain ⟨rfl, rfl⟩ := afterCommand_issue.mp hc
        obtain ⟨h1, h2⟩ := he i (by simp) _ (ha s hs)
        have h1 := hst.trans h1
        rw [markedStep_of_next h1] at hn
        rw [h1]
        refine (ih (fun k hk => he k (by simp [hk])) h2 hn).trans ?_
        rw [show f i s.afterFetch = { f i s with pending := s.pending.tail } from hf i s _, hfold]
        simp

/-- A `WAIT` ends with the engine idle, and with all that the engine's turns and the polls keep. -/
theorem run_of_performs_wait {P : State → Prop} (hr : ∀ s, P s → s.refused = none)
    (ht : ∀ s, P s → (s.pending = [] ∨ s.pending.head? = some .engine) →
      ∃ u, step s = .next u ∧ P u ∧ (s.phase = .idle → u.phase = .idle))
    (hp : ∀ s v, P s → P (s.afterFetch.reply v))
    (hs : P s) (h : performs [.wait] n s = true ∨ (s.phase = .idle ∧ performs [] n s = true)) :
    ∃ u, run n s = .next u ∧ P u ∧ u.phase = .idle := by
  induction n generalizing s with
  | zero =>
    rcases h with h | h
    · cases performs_zero.mp h
    · exact ⟨s, rfl, hs, h.1⟩
  | succ n ih =>
    rw [run_succ]
    rcases h with h | ⟨hi, h⟩ <;> obtain ⟨q, hq, hn⟩ := performs_succ.mp h
    · rcases afterStep_cases (hr s hs) hq with ⟨he, rfl⟩ | ⟨i, -, hst, hc⟩
      · obtain ⟨u, hu, hPu, -⟩ := ht s hs he
        rw [markedStep_of_next hu] at hn
        rw [hu]; exact ih hPu (.inl hn)
      · obtain ⟨rfl, hw⟩ := afterCommand_wait.mp hc
        have h1 := hst.trans (execRdst_eq_next.mpr rfl)
        rw [saysReady_rdst hst] at hw
        rw [markedStep_of_next h1] at hn
        rw [h1]
        refine ih (hp s _ hs) ?_
        rcases hw with ⟨h2, rfl⟩ | ⟨-, rfl⟩
        · exact .inr ⟨State.ready_iff.mp h2, hn⟩
        · exact .inl hn
    · rcases afterStep_cases (hr s hs) hq with ⟨he, rfl⟩ | ⟨i, -, -, hc⟩
      · obtain ⟨u, hu, hPu, hid⟩ := ht s hs he
        rw [markedStep_of_next hu] at hn
        rw [hu]; exact ih hPu (.inr ⟨hid hi, hn⟩)
      · cases hc

end Sys2Proof.Machine
end

