-- ==== Sys2Proof/Laws/Invariant.lean ====
section
/-!
SUPPORT. What each micro-operation does to the invariant of a compression.

Each lemma is about one micro-operation, run from the selector that names it.
-/

namespace Sys2Proof.Machine

variable {s u : State} {i : Instr} {t : BitVec 6}

/-- A legal selector other than `IDLE`'s names a micro-operation. -/
theorem microOp_of_legal {p : Phase} (hl : legalSelector p t) (hp : p ≠ .idle) : ∃ i, microOp p t = .ok i := by
  cases p <;> simp_all [legalSelector, microOp]

/-- The transition table leads from legal selectors to legal selectors (`10_state.md` R28). -/
theorem legalSelector_next {p : Phase} (hl : legalSelector p t) :
    legalSelector (nextSelector p t).1 (nextSelector p t).2 := by
  by_cases hlt : t < 63#6 <;> cases p <;> simp only [nextSelector, hlt, if_true, if_false, legalSelector] at hl ⊢
  all_goals bv_omega

/-- The engine is busy when its selector names a micro-operation. -/
theorem busy_of_microOp (hm : microOp s.phase s.t = .ok i) : s.phase ≠ .idle := by
  rcases microOp_eq_ok.mp hm with ⟨hp, -⟩ | ⟨hp, -⟩ | ⟨hp, -⟩ | ⟨hp, -⟩ | ⟨hp, -⟩ <;> rw [hp] <;> decide

/-- `LOADW` gives the first sixteen words of `SCHED(M)`. -/
theorem State.Inv.loadw (hI : s.Inv) (hm : microOp s.phase s.t = .ok .loadw) (h : exec .loadw s = .next u) :
    u.Inv := by
  have hw := hI.written (busy_of_microOp hm)
  rw [execLoadw_eq_next] at h; subst h
  refine ⟨by simp [legalSelector], fun _ => by simpa using hw, fun j hj => ?_, fun n hn => by cases hn⟩
  have hj : j < 16#6 := by simp [scheduleDone] at hj; bv_omega
  simp only [State.goto_W, State.drew_W, State.setW_W, State.goto_M, State.drew_M, State.setW_M]
  rw [loadSchedule_get_lt _ _ hj, State.loadWord_of_written (hw _), sched_get_lt _ hj]

/-- `EXPAND[t]` gives word `t` of `SCHED(M)`. -/
theorem State.Inv.expand (hI : s.Inv) (hm : microOp s.phase s.t = .ok (.expand t))
    (h : exec (.expand t) s = .next u) : u.Inv := by
  have hw := hI.written (busy_of_microOp hm)
  have hs := hI.schedule
  have ⟨hp, h16, ht⟩ : s.phase = .expand ∧ 16#6 ≤ s.t ∧ t = s.t := by
    rcases microOp_eq_ok.mp hm with ⟨hp, h', h''⟩ | ⟨hp, h', h''⟩ | ⟨hp, h', h''⟩ | ⟨hp, h''⟩ | ⟨hp, h', h''⟩ <;>
      cases h''
    exact ⟨hp, h', rfl⟩
  subst ht
  rw [execExpand_eq_next] at h; obtain ⟨-, rfl⟩ := h
  simp only [hp, scheduleDone] at hs
  have key : ∀ j : BitVec 6, j.toNat ≤ s.t.toNat →
      (s.W.put s.t (scheduleWord s.W s.t)).get j = (sched s.M).get j := by
    intro j hj
    rw [Bank.get_put]; split
    · next e => subst e; rw [sched_get_ge _ h16]; exact scheduleWord_congr h16 hs
    · next e =>
      refine hs j ?_
      have : j.toNat ≠ s.t.toNat := fun c => e (BitVec.eq_of_toNat_eq c)
      omega
  by_cases hlt : s.t < 63#6
  · rw [State.loopOr_of_lt _ _ _ hlt]
    refine ⟨?_, fun _ => by simpa using hw, fun j hj => ?_, fun n hn => by cases hn⟩
    · simp only [legalSelector, State.goto_phase, State.goto_t]; bv_omega
    · simp only [scheduleDone, State.goto_phase, State.goto_t] at hj
      simpa using key j (by bv_omega)
  · have hl := State.eq_last_of_not_lt hlt
    have key : ∀ j : BitVec 6, (s.W.put s.t (scheduleWord s.W s.t)).get j = (sched s.M).get j :=
      fun j => key j (by rw [hl]; have := j.isLt; simp; omega)
    rw [hl] at key ⊢
    rw [State.loopOr_of_last]
    refine ⟨by simp [legalSelector], fun _ => by simpa using hw, fun j _ => ?_, fun n hn => by cases hn⟩
    simpa using key j

/-- `COPY` starts the rounds from `H`, on a whole schedule. -/
theorem State.Inv.copy (hI : s.Inv) (hm : microOp s.phase s.t = .ok .copy) (h : exec .copy s = .next u) :
    u.Inv := by
  have hw := hI.written (busy_of_microOp hm)
  have hs := hI.schedule
  have hp : s.phase = .copy := by
    rcases microOp_eq_ok.mp hm with ⟨hp, h', h''⟩ | ⟨hp, h', h''⟩ | ⟨hp, h', h''⟩ | ⟨hp, h''⟩ | ⟨hp, h', h''⟩ <;>
      cases h''
    exact hp
  rw [execCopy_eq_next] at h; subst h
  refine ⟨trivial, fun _ => by simpa using hw, fun j _ => ?_, fun n hn => ?_⟩
  · simp only [hp, scheduleDone] at hs
    simpa using hs j j.isLt
  · simp [roundsDone] at hn; subst hn; simp

/-- `ROUND[t]` does one more round. -/
theorem State.Inv.round (hI : s.Inv) (hm : microOp s.phase s.t = .ok (.round t))
    (h : exec (.round t) s = .next u) : u.Inv := by
  have hw := hI.written (busy_of_microOp hm)
  have hs := hI.schedule
  have hr := hI.registers
  have ⟨hp, ht⟩ : s.phase = .round ∧ t = s.t := by
    rcases microOp_eq_ok.mp hm with ⟨hp, h', h''⟩ | ⟨hp, h', h''⟩ | ⟨hp, h', h''⟩ | ⟨hp, h''⟩ | ⟨hp, h', h''⟩ <;>
      cases h''
    exact ⟨hp, rfl⟩
  subst ht
  rw [execRound_eq_next] at h; subst h
  simp only [hp, scheduleDone, roundsDone, Option.some.injEq, forall_eq'] at hs hr
  have hs : ∀ j : BitVec 6, s.W.get j = (sched s.M).get j := fun j => hs j j.isLt
  have key : rnd s.reg (K.get s.t) (s.W.get s.t) = rounds (workingOf s.H) (sched s.M) (s.t.toNat + 1) := by
    rw [rounds_toNat_succ, ← hr, hs]
  by_cases hlt : s.t < 63#6
  · rw [State.loopOr_of_lt _ _ _ hlt]
    refine ⟨trivial, fun _ => by simpa using hw, fun j _ => by simpa using hs j, fun n hn => ?_⟩
    simp only [roundsDone, State.goto_phase, State.goto_t, Option.some.injEq] at hn
    have : n = s.t.toNat + 1 := by bv_omega
    subst this; simpa using key
  · have hl := State.eq_last_of_not_lt hlt
    have h64 : s.t.toNat + 1 = 64 := by rw [hl]; rfl
    rw [h64] at key
    rw [hl, State.loopOr_of_last, ← hl]
    refine ⟨by simp [legalSelector], fun _ => by simpa using hw, fun j _ => by simpa using hs j, fun n hn => ?_⟩
    simp only [roundsDone, State.goto_phase, Option.some.injEq] at hn
    subst hn
    simpa using key

end Sys2Proof.Machine
end

