-- ==== Sys2Proof/Laws/PerInstr.lean ====
section
/-!
SUPPORT. Statements about every instruction, one lemma per constructor.
-/

namespace Sys2Proof.Laws

/-- The word the encoder gives an instruction selects the instruction's own row of the opcode table
(`30_encoding.md` R61, R67), and its format is the one that has that row. -/
def RowMatch.Statement (i : Instr) : Prop :=
  match encode i with
  | .bus w => ∃ r, busRow i = some r ∧ seqRow i = none ∧ r.selects w = true
  | .seq x => ∃ r, seqRow i = some r ∧ busRow i = none ∧ r.selects x = true

namespace RowMatch

theorem nopc : Statement .nopc := ⟨_, rfl, rfl, by decide⟩
theorem init : Statement .init := ⟨_, rfl, rfl, by decide⟩
theorem start : Statement .start := ⟨_, rfl, rfl, by decide⟩
theorem initstart : Statement .initstart := ⟨_, rfl, rfl, by decide⟩

/-- A mask that reads no bit of `wdata` selects by the other two fields. -/
theorem selects_busWord {rw : Bool} {off : BitVec 6} {v : Word} {m : BitVec 6} {p : BitVec 39}
    (h : busWord rw (off &&& m) 0#32 = p) :
    OpcodeRow.selects { mask := busWord true m 0#32, pattern := p } (busWord rw off v) = true := by
  simp [OpcodeRow.selects, busWord_and, h]

theorem wrblk (i : BitVec 4) (v : Word) : Statement (.wrblk i v) :=
  ⟨_, rfl, rfl, selects_busWord (m := 0b110000#6) (by revert i; decide)⟩
theorem rdblk (i : BitVec 4) : Statement (.rdblk i) :=
  ⟨_, rfl, rfl, selects_busWord (m := 0b110000#6) (by revert i; decide)⟩
theorem rdh (i : BitVec 3) : Statement (.rdh i) :=
  ⟨_, rfl, rfl, selects_busWord (m := 0b111000#6) (by revert i; decide)⟩
theorem rdst : Statement .rdst := ⟨_, rfl, rfl, by decide⟩
theorem loadw : Statement .loadw := ⟨_, rfl, rfl, by decide⟩
theorem expand (t : BitVec 6) : Statement (.expand t) := ⟨_, rfl, rfl, by revert t; decide⟩
theorem copy : Statement .copy := ⟨_, rfl, rfl, by decide⟩
theorem round (t : BitVec 6) : Statement (.round t) := ⟨_, rfl, rfl, by revert t; decide⟩
theorem accum : Statement .accum := ⟨_, rfl, rfl, by decide⟩

end RowMatch

end Sys2Proof.Laws
end

