-- ==== Sys2Proof/Laws/Refusal.lean ====
section
/-!
SUPPORT. The reserved transaction words: the decoder's rejections are exactly the rows of `60_exceptions.md` R174
that hold in every state.
-/

namespace Sys2Proof.Machine

theorem busOffset_toNat {w : BitVec 39} {r : WindowReg} (h : windowReg (busOffset w) = some r) :
    (busOffset w).toNat = r.offset.toNat := by rw [offset_of_windowReg h]

/-- A word the decoder rejects is reserved, for the decoder's reason. -/
theorem reservedReason_of_error {w : BitVec 39} {e : BusReject} (h : decodeBus w = .error e) :
    reservedReason w = some (refusalOf e) := by
  unfold decodeBus at h
  unfold reservedReason
  split at h
  · next hw => cases h; simp [(windowReg_eq_none_iff _).mp hw, refusalOf]
  · next hw e => cases h; simp [e, busOffset_toNat hw, WindowReg.offset, refusalOf]
  · next hw e =>
    have h4 : 4 ≤ (busData w).toNat := by
      rw [decodeCtrl_eq] at h
      split_ifs at h
      by_contra hc
      have : (busData w).toNat = 0 ∨ (busData w).toNat = 1 ∨ (busData w).toNat = 2 ∨ (busData w).toNat = 3 := by omega
      simp_all [← BitVec.toNat_inj]
    rw [decodeCtrl_eq] at h
    split_ifs at h
    cases h; simp [h4, e, busOffset_toNat hw, WindowReg.offset, refusalOf]
  · cases h
  · next hw e => cases h; simp [e, busOffset_toNat hw, WindowReg.offset, refusalOf]
  · cases h
  · cases h
  · cases h
  · next i hw e =>
    have := i.isLt
    cases h
    rw [busOffset_toNat hw, digest_offset_toNat, if_neg (by omega), if_neg (by omega), if_neg (by omega),
      if_pos ⟨e, by omega, by omega⟩]; rfl

/-- A word that decodes is not reserved. -/
theorem reservedReason_of_ok {w : BitVec 39} {i : Instr} (h : decodeBus w = .ok i) : reservedReason w = none := by
  unfold reservedReason
  rcases decodeBus_eq_ok.mp h with ⟨hr, e, h⟩ | ⟨hr, e, rfl⟩ | ⟨j, hr, e, rfl⟩ | ⟨j, hr, e, rfl⟩ | ⟨j, hr, e, rfl⟩
  · rcases decodeCtrl_eq_ok.mp h with ⟨hv, rfl⟩ | ⟨hv, rfl⟩ | ⟨hv, rfl⟩ | ⟨hv, rfl⟩ <;>
      simp [e, hv, busOffset_toNat hr, WindowReg.offset]
  · simp [e, busOffset_toNat hr, WindowReg.offset]
  · have := j.isLt
    simp only [busOffset_toNat hr, block_offset_toNat, e]
    split_ifs <;> first | rfl | (exfalso; omega)
  · have := j.isLt
    simp only [busOffset_toNat hr, block_offset_toNat, e]
    split_ifs <;> first | rfl | (exfalso; omega)
  · have := j.isLt
    simp only [busOffset_toNat hr, digest_offset_toNat, e]
    split_ifs <;> first | rfl | (exfalso; omega) | (exfalso; simp at *)

end Sys2Proof.Machine
end

