-- ==== Sys2Proof/Laws/WordFn.lean ====
section
/-!
SUPPORT. Laws of the byte order: a word from its bytes, and a byte of a block.
-/

namespace Sys2Proof.Machine

/-- The word of four bytes as a number, big-endian (`20_memory.md` R45). -/
theorem packWord_toNat (b0 b1 b2 b3 : Byte) :
    (packWord b0 b1 b2 b3).toNat =
      b0.toNat * 2 ^ 24 + b1.toNat * 2 ^ 16 + b2.toNat * 2 ^ 8 + b3.toNat := by
  unfold packWord
  have h1 := b1.isLt
  have h2 := b2.isLt
  have h3 := b3.isLt
  erw [BitVec.toNat_append, BitVec.toNat_append, BitVec.toNat_append, ← Nat.shiftLeft_add_eq_or_of_lt h3,
    ← Nat.shiftLeft_add_eq_or_of_lt h2, ← Nat.shiftLeft_add_eq_or_of_lt h1]
  simp [Nat.shiftLeft_eq]
  omega

/-- Byte `4i + k` of a block is byte `k` of its word `i`. -/
theorem blockByte_append (m : Bank Word 4) (i : BitVec 4) (k : BitVec 2) :
    blockByte m (i ++ k) = wordByte (m.get i) k := by
  have h : ∀ (i : BitVec 4) (k : BitVec 2),
      BitVec.extractLsb' 2 4 (i ++ k) = i ∧ BitVec.extractLsb' 0 2 (i ++ k) = k := by decide
  unfold blockByte
  erw [(h i k).1, (h i k).2]

end Sys2Proof.Machine
end

