-- ==== Sys2Proof/Tests/Slice0.lean ====
section
/-!
SUPPORT. The model's own tests: expected values from `95_test_vectors.md` and the worked examples of the rules, and
for each statement with hypotheses a witness that meets them.
-/

namespace Sys2Proof.Tests

set_option Elab.async false

open Sys2Proof.Machine

/-! ### Small states -/

/-- The "abc" block (`95_test_vectors.md` V20). -/
def abcBlock : Bank Word 4 := ((Bank.fill 0).put 0 0x61626380#32).put 15 0x00000018#32

/-- An idle engine with the "abc" block written. -/
def full : State := { State.reset with M := abcBlock, written := Bank.fill true }

/-- The same engine with the sequencer at a selector. -/
def busy (p : Phase) (t : BitVec 6) : State := { full with phase := p, t := t }

/-- The engine after reset with some events pending. -/
def offered (es : List Event) : State := { State.reset with pending := es }

/-- The state an outcome goes on with. -/
def goesOn : Result → Option State
  | .next s => some s
  | .fault _ => none
  | .refused _ => none

/-- The reason an outcome is refused for. -/
def reason : Result → Option RefusalReason
  | .next _ => none
  | .fault _ => none
  | .refused r => r.reason

/-- One field of the state an outcome goes on with. -/
def field {α : Type} (f : State → α) (o : Result) : Option α := (goesOn o).map f

/-- The reason the first transaction after reset is refused for. -/
def refusal (w : BitVec 39) : Option RefusalReason := reason (step (offered [.bus w]))

/-! ### WellFormed: an ill-formed term is refused, the nearest well-formed one is not -/

theorem test_wellFormed_expand : wellFormed (.expand 15#6) = false ∧ wellFormed (.expand 16#6) = true := by decide

theorem test_not_WellFormed_expand : ¬ WellFormed (.expand 15#6) := by decide

/-- An ill-formed term has no encoding that decodes to it (`30_encoding.md` R67). -/
theorem test_illFormed_not_decoded : decode (encode (.expand 15#6)) = .error (.seq .unreachable) := by decide

/-! ### Decoding: words of `95_test_vectors.md` V30 and V32 -/

theorem test_decode_ctrl :
    decode (.bus 0x4000000000#39) = .ok .nopc ∧ decode (.bus 0x4000000001#39) = .ok .init ∧
    decode (.bus 0x4000000002#39) = .ok .start ∧ decode (.bus 0x4000000003#39) = .ok .initstart := by decide

theorem test_decode_wrblk :
    decode (.bus 0x5061626380#39) = .ok (.wrblk 0 0x61626380#32) ∧
    decode (.bus 0x5f00000018#39) = .ok (.wrblk 15 0x00000018#32) ∧
    decode (.bus 0x5780000000#39) = .ok (.wrblk 7 0x80000000#32) := by decide

theorem test_decode_reads :
    decode (.bus 0x1f12345678#39) = .ok (.rdblk 15) ∧ decode (.bus 0x27ffffffff#39) = .ok (.rdh 7) ∧
    decode (.bus 0x2000000000#39) = .ok (.rdh 0) ∧ decode (.bus 0x01deadbeef#39) = .ok .rdst := by decide

theorem test_decode_selectors :
    decode (.seq 0x040#9) = .ok .loadw ∧ decode (.seq 0x090#9) = .ok (.expand 16) ∧
    decode (.seq 0x0bf#9) = .ok (.expand 63) ∧ decode (.seq 0x0c0#9) = .ok .copy ∧
    decode (.seq 0x100#9) = .ok (.round 0) ∧ decode (.seq 0x13f#9) = .ok (.round 63) ∧
    decode (.seq 0x140#9) = .ok .accum := by decide

theorem test_decode_no_instruction :
    decode (.seq 0x000#9) = .error (.seq .noMicroOp) ∧ decode (.seq 0x08f#9) = .error (.seq .unreachable) ∧
    decode (.seq 0x041#9) = .error (.seq .unreachable) ∧ decode (.seq 0x180#9) = .error (.seq .unreachable) ∧
    decode (.seq 0x1ff#9) = .error (.seq .unreachable) := by decide

theorem test_decodeTableWord :
    decodeTableWord 40 0x5f00000018 = some (.wrblk 15 0x00000018#32) ∧ decodeTableWord 16 0x0bf = some (.expand 63) ∧
    decodeTableWord 40 0x4000000004 = none ∧ decodeTableWord 40 0xC000000000 = none ∧
    decodeTableWord 16 0x240 = none := by decide

/-! ### Word functions: `95_test_vectors.md` V10 to V19, and V12's shifts -/

theorem test_add32 : add32 1 0xffffffff = 0 ∧ add32 0x6a09e667 0x506e3058 = 0xba7816bf := by decide

theorem test_rotr :
    rotr 0x12345678 7 = 0xf02468ac ∧ rotr 0x12345678 25 = 0x1a2b3c09 ∧ rotr 0x80000000 31 = 0x00000001 := by decide

theorem test_shr : shr 0x12345678 10 = 0x00048d15 ∧ shr 0x80000000 3 = 0x10000000 := by decide

theorem test_bitwise :
    (0x510e527f ^^^ 0x9b05688c : Word) = 0xca0b3af3 ∧ (0x510e527f &&& 0x9b05688c : Word) = 0x1104400c ∧
    ~~~(0x510e527f : Word) = 0xaef1ad80 := by decide

theorem test_ssig : ssig0 0x61626380 = 0x940e90ef ∧ ssig1 0x61626380 = 0x7da86405 := by decide

theorem test_bsig : bsig0 0x6a09e667 = 0xce20b47e ∧ bsig1 0x510e527f = 0x3587272b := by decide

theorem test_ch :
    ch 0x510e527f 0x9b05688c 0x1f83d9ab = 0x1f85c98c ∧ ch 0xf0f0f0f0 0xcccccccc 0xaaaaaaaa = 0xcacacaca := by decide

theorem test_maj :
    maj 0x6a09e667 0xbb67ae85 0x3c6ef372 = 0x3a6fe667 ∧ maj 0xf0f0f0f0 0xcccccccc 0xaaaaaaaa = 0xe8e8e8e8 := by
  decide

/-- `20_memory.md` R45's example: bytes `61 62 63 80`. -/
theorem test_packWord : packWord 0x61 0x62 0x63 0x80 = 0x61626380 ∧ blockByte abcBlock 1 = 0x62 := by decide

/-! ### Commands (`43_commands.md`, worked examples; `95_test_vectors.md` V31) -/

theorem test_nopc : goesOn (exec .nopc full) = some full ∧
    reason (exec .nopc (busy .round 5)) = some .writeWhileBusy := by decide +kernel

theorem test_init : field (fun u => (u.H.get 0, u.H.get 7, u.M)) (exec .init { full with H := Bank.fill 7 }) =
    some (0x6a09e667, 0x5be0cd19, abcBlock) := by decide +kernel

theorem test_start : field (fun u => (u.phase, u.t, u.ready)) (exec .start full) = some (.load, 0, false) := by
  decide +kernel

/-- Fifteen words written are not enough. -/
theorem test_start_unwritten :
    reason (exec .start { full with written := (Bank.fill true).put 15 false }) = some .startUnwritten := by
  decide +kernel

theorem test_initstart :
    field (fun u => (u.H.get 0, u.phase)) (exec .initstart { full with H := Bank.fill 7 }) =
      some (0x6a09e667, .load) := by decide +kernel

theorem test_wrblk :
    field (fun u => (u.M.get 3, u.written.get 3, u.written.get 4)) (exec (.wrblk 3 7) State.reset) =
      some (7, true, false) := by decide +kernel

theorem test_rdblk :
    field State.returned (exec (.rdblk 15) (busy .expand 20)) = some [0x00000018] ∧
    reason (exec (.rdblk 3) State.reset) = some .readUnwritten := by decide +kernel

theorem test_rdh : field State.returned (exec (.rdh 7) State.reset) = some [0x5be0cd19] := by decide +kernel

theorem test_rdst :
    field State.returned (exec .rdst State.reset) = some [0x00000001] ∧
    field State.returned (exec .rdst (busy .accum 0)) = some [0x00000000] := by decide +kernel

/-! ### Refusals of reserved words (`95_test_vectors.md` V31), each beside an accepted word -/

theorem test_refused_reserved :
    refusal 0x0200000000#39 = some .reservedOffset ∧ refusal 0x4f00000005#39 = some .reservedOffset ∧
    refusal 0x2800000000#39 = some .reservedOffset ∧ refusal 0x7fffffffff#39 = some .reservedOffset ∧
    refusal 0x0000000000#39 = some .readCtrl ∧ refusal 0x4100000001#39 = some .writeStatus ∧
    refusal 0x6000000000#39 = some .writeDigest ∧ refusal 0x676a09e667#39 = some .writeDigest ∧
    refusal 0x4000000004#39 = some .ctrlReservedBits ∧ refusal 0x4080000000#39 = some .ctrlReservedBits := by
  decide +kernel

theorem test_accepted_nearest :
    refusal 0x0100000000#39 = none ∧ refusal 0x5000000005#39 = none ∧ refusal 0x2700000000#39 = none ∧
    refusal 0x4000000001#39 = none ∧ refusal 0x4000000000#39 = none := by decide +kernel

/-- The mark stays, an `INIT` is refused, and a reset clears it (`60_exceptions.md` R173). -/
theorem test_mark :
    (markedStep (offered [.bus 0x4000000004#39])).refused = some .ctrlReservedBits ∧
    (markedStep { State.reset with refused := some .readCtrl, pending := [.bus 0x4000000001#39] }).refused =
      some .readCtrl ∧
    (markedStep { State.reset with refused := some .readCtrl, pending := [.reset] }).refused = none := by
  decide +kernel

/-! ### Micro-operations (`95_test_vectors.md` V20 to V22) -/

theorem test_loadw :
    field (fun u => (u.W.get 0, u.W.get 15, u.W.get 16, u.phase, u.t))
      (exec .loadw { busy .load 0 with W := Bank.fill 9 }) =
      some (0x61626380, 0x00000018, 9, .expand, 16) := by decide +kernel

theorem test_expand :
    field (fun u => (u.W.get 17, u.phase, u.t))
      (exec (.expand 17) { busy .expand 17 with W := expandFirst (loadSchedule abcBlock.get (Bank.fill 0)) 1 }) =
      some (0x000f0000, .expand, 18) ∧
    field (fun u => (u.phase, u.t)) (exec (.expand 63) (busy .expand 63)) = some (.copy, 0) := by decide +kernel

theorem test_expand_stops : (match exec (.expand 15) full with | .fault f => some f | _ => none) =
    some .unreachableSelector := by decide +kernel

theorem test_copy :
    field (fun u => (u.reg, u.phase, u.t)) (exec .copy (busy .copy 0)) =
      some (⟨0x6a09e667, 0xbb67ae85, 0x3c6ef372, 0xa54ff53a, 0x510e527f, 0x9b05688c, 0x1f83d9ab, 0x5be0cd19⟩,
        .round, 0) := by decide +kernel

/-- Round 0 of the "abc" block (`42_compression.md` R111, worked example). -/
theorem test_round :
    field (fun u => (u.reg, u.phase, u.t))
      (exec (.round 0) { busy .round 0 with reg := workingOf IV, W := loadSchedule abcBlock.get (Bank.fill 0) }) =
      some (⟨0x5d6aebcd, 0x6a09e667, 0xbb67ae85, 0x3c6ef372, 0xfa2a4622, 0x510e527f, 0x9b05688c, 0x1f83d9ab⟩,
        .round, 1) := by decide +kernel

/-- A corner round of V22's table: every register and `W[63]` `0x80000000`, at the last index. -/
theorem test_round_last :
    field (fun u => (u.reg.a, u.reg.e, u.phase, u.t))
      (exec (.round 63) { busy .round 63 with
        reg := ⟨0x80000000, 0x80000000, 0x80000000, 0x80000000, 0x80000000, 0x80000000, 0x80000000, 0x80000000⟩
        W := Bank.fill 0x80000000 }) =
      some (0xe8857b32, 0xc8817932, .accum, 0) := by decide +kernel

theorem test_accum :
    field (fun u => (u.H, u.ready))
      (exec .accum { busy .accum 0 with
        reg := ⟨0x506e3058, 0xd39a2165, 0x04d24d6c, 0xb85e2ce9, 0x5ef50f24, 0xfb121210, 0x948d25b6, 0x961f4894⟩ }) =
      some (⟨#v[0xba7816bf, 0x8f01cfea, 0x414140de, 0x5dae2223, 0xb00361a3, 0x96177a9c, 0xb410ff61, 0xf20015ad]⟩,
        true) := by decide +kernel

/-! ### Steps, reset, and how a program comes to run -/

theorem test_step_runs_transaction :
    field (fun u => (u.M.get 0, u.pending)) (step (offered [.bus 0x5061626380#39, .engine])) =
      some (0x61626380, [.engine]) := by decide +kernel

theorem test_step_runs_selector : field (fun u => (u.phase, u.t)) (step (busy .load 0)) = some (.expand, 16) := by
  decide +kernel

/-- From reset with nothing placed the machine stands still (`70_reset_and_hazards.md` R191). -/
theorem test_reset_stands_still : goesOn (step State.reset) = some State.reset := by decide +kernel

/-- `95_test_vectors.md` V35. -/
theorem test_reset_aborts :
    field (fun u => (u.H.get 0, u.phase, u.t, u.written.get 0))
      (step { busy .round 40 with pending := [.reset], H := Bank.fill 3 }) =
      some (0x6a09e667, .idle, 0, false) := by decide +kernel

theorem test_withFetchWord :
    field (fun u => (u.M.get 15, u.pending)) (step (State.reset.withFetchWord 40 0x5f00000018)) = some (0x18, []) ∧
    field (fun u => (u.phase, u.t)) (step (State.reset.withFetchWord 16 0x0bf)) = some (.copy, 0) := by
  decide +kernel

/-- A `WAIT` is over at the first poll that returns 1, not before and not after (`30_encoding.md` R71). -/
theorem test_wait :
    performs [.wait] 1 (offered [eventOf .rdst]) = true ∧ performs [.wait] 2 (offered [eventOf .rdst, eventOf .rdst]) = false ∧
    performs [.wait] 1 { busy .accum 0 with pending := [eventOf .rdst] } = false ∧
    performs [.wait] 3 { busy .accum 0 with pending := [eventOf .rdst, .engine, eventOf .rdst] } = true ∧
    performs [.wait] 2 { busy .accum 0 with pending := [eventOf (.rdh 0), .engine] } = false := by decide +kernel

/-! ### Whole functions (`95_test_vectors.md` V1 to V3, V20, V21, V24, V25, V28, V29) -/

theorem test_sched : (sched abcBlock).get 19 = 0x600003c6 ∧ (sched abcBlock).get 63 = 0x12b1edeb := by decide +kernel

theorem test_rounds_abc : rounds (workingOf IV) (sched abcBlock) 64 =
    ⟨0x506e3058, 0xd39a2165, 0x04d24d6c, 0xb85e2ce9, 0x5ef50f24, 0xfb121210, 0x948d25b6, 0x961f4894⟩ := by
  decide +kernel

theorem test_compress_zero : compress (Bank.fill 0) (Bank.fill 0) =
    ⟨#v[0x7ca51614, 0x425c3ba8, 0xce54dd2f, 0xc2020ae7, 0xb6e574d1, 0x98136d0f, 0xae7e26cc, 0xbf0be7a6]⟩ := by
  decide +kernel

theorem test_sha256_empty : sha256Words [] =
    ⟨#v[0xe3b0c442, 0x98fc1c14, 0x9afbf4c8, 0x996fb924, 0x27ae41e4, 0x649b934c, 0xa495991b, 0x7852b855]⟩ := by
  decide +kernel

theorem test_sha256_abc : sha256 [0x61, 0x62, 0x63] =
    "ba7816bf8f01cfea414140de5dae2223b00361a396177a9cb410ff61f20015ad" := by decide +kernel

/-- 56 bytes `61`: the shortest message of two blocks. -/
theorem test_sha256_two_blocks : sha256 (List.replicate 56 0x61) =
    "b35439a4ac6f0948b6d6f9e3c6af0f5f590ce20f1bde7090ef7970686ec6738a" := by decide +kernel

theorem test_pad : pad [0x61, 0x62, 0x63] =
    [0x61, 0x62, 0x63, 0x80] ++ List.replicate 52 0x00 ++ [0, 0, 0, 0, 0, 0, 0, 0x18] := by decide +kernel

theorem test_pad_zeros : padZeros 0 = 55 ∧ padZeros 55 = 0 ∧ padZeros 56 = 63 ∧ padZeros 64 = 55 ∧ padZeros 120 = 63 := by
  decide

/-- The wrap of V28: `L = 2^61 - 1`, `2^61`, `2^61 + 3`. -/
theorem test_bitLength : bitLength (2 ^ 61 - 1) = 0xfffffffffffffff8 ∧ bitLength (2 ^ 61) = 0 ∧
    bitLength (2 ^ 61 + 3) = 0x18 := by decide +kernel

theorem test_encode : encodeDigest
    ⟨#v[0x00000001, 0x0000000a, 0x0c3e6039, 0x00abcdef, 0x10000000, 0x0000000f, 0xffffffff, 0x00000100]⟩ =
    "000000010000000a0c3e603900abcdef100000000000000fffffffff00000100" := by decide +kernel

/-- The first and the last four bytes of V2's digest, `ba7816bf` and `f20015ad`. -/
theorem test_digestBytes :
    (digestBytes (sha256Words [0x61, 0x62, 0x63])).take 4 = [0xba, 0x78, 0x16, 0xbf] ∧
    (digestBytes (sha256Words [0x61, 0x62, 0x63])).drop 28 = [0xf2, 0x00, 0x15, 0xad] := by decide +kernel

theorem test_instrText : instrText (.wrblk 15 0x00000018) = "WRBLK 15, 0x00000018" ∧ instrText (.rdh 7) = "RDH 7" := by
  decide +kernel

/-! ### Witnesses: states and operands that meet the hypotheses of each statement together -/

theorem witness_DecodeEncodeRoundTrip :
    WellFormed (.expand 16) ∧ WellFormed (.expand 63) ∧ WellFormed (.round 0) ∧ WellFormed (.wrblk 15 1) := by decide

theorem witness_EncodeDecodeCanonical :
    decode (.bus 0x5fffffffff#39) = .ok (.wrblk 15 0xffffffff#32) ∧ decode (.bus 0x1f12345678#39) = .ok (.rdblk 15) ∧
    decode (.seq 0x13f#9) = .ok (.round 63) := by decide

theorem witness_TransactionTableDecides :
    decode (.bus 0x5fffffffff#39) = .ok (.wrblk 15 0xffffffff#32) ∧
    (busRow (.wrblk 0 0)).map (·.selects 0x5fffffffff#39) = some true ∧ busRow (.wrblk 0 0) = busRow (.wrblk 15 1) := by
  decide

theorem witness_OperandFields :
    decode (.bus 0x5000000000#39) = .ok (.wrblk 0 0) ∧ decode (.bus 0x5fffffffff#39) = .ok (.wrblk 15 0xffffffff#32) ∧
    decode (.bus 0x1000000000#39) = .ok (.rdblk 0) ∧ decode (.bus 0x1f00000000#39) = .ok (.rdblk 15) ∧
    decode (.bus 0x2000000000#39) = .ok (.rdh 0) ∧ decode (.bus 0x27ffffffff#39) = .ok (.rdh 7) := by decide

theorem witness_CtrlValuesAreFourCommands :
    (∃ u, exec .init full = .next u) ∧ (∃ u, exec .init State.reset = .next u) := ⟨⟨_, rfl⟩, ⟨_, rfl⟩⟩

/-- Each reserved case at the ends of its range, and the accepted neighbours. -/
theorem witness_ReservedTransactionsRefused :
    (offered [.bus 0x0200000000#39]).refused = none ∧
    (offered [.bus 0x0200000000#39]).pending = .bus 0x0200000000#39 :: [] ∧
    reservedReason 0x0200000000#39 = some .reservedOffset ∧ reservedReason 0x4f00000005#39 = some .reservedOffset ∧
    reservedReason 0x2800000000#39 = some .reservedOffset ∧ reservedReason 0x7fffffffff#39 = some .reservedOffset ∧
    reservedReason 0x00ffffffff#39 = some .readCtrl ∧ reservedReason 0x4100000000#39 = some .writeStatus ∧
    reservedReason 0x6000000000#39 = some .writeDigest ∧ reservedReason 0x67ffffffff#39 = some .writeDigest ∧
    reservedReason 0x4000000004#39 = some .ctrlReservedBits ∧ reservedReason 0x40ffffffff#39 = some .ctrlReservedBits ∧
    reservedReason 0x4000000003#39 = none ∧ reservedReason 0x0100000000#39 = none ∧
    reservedReason 0x1000000000#39 = none ∧ reservedReason 0x5fffffffff#39 = none ∧
    reservedReason 0x27ffffffff#39 = none := by decide +kernel

/-- A selector outside the table, `EXPAND` with `t = 15`, is no instruction's encoding; so is one with code `110`. -/
theorem witness_SelectorTableDecides :
    16#6 ≤ (16#6 : BitVec 6) ∧ 16#6 ≤ (63#6 : BitVec 6) ∧
    (0x08f#9 : BitVec 9) ≠ 0#9 ∧ (∀ i, WellFormed i → encode i ≠ .seq 0x08f#9) ∧
    (0x180#9 : BitVec 9) ≠ 0#9 ∧ (∀ i, WellFormed i → encode i ≠ .seq 0x180#9) := by
  refine ⟨by decide, by decide, by decide, ?_, by decide, ?_⟩ <;>
  · intro i hw h
    cases i with
    | expand t => revert t; decide
    | round t => revert t; decide
    | _ => cases h

/-- The premises of `NOPC`, `INIT`, `START`, `INITSTART`, `WRBLK`, `RDBLK`, `LOADW`. -/
theorem witness_ready_written : full.phase = .idle ∧ (∀ i, full.written.get i = true) := by decide +kernel

/-- `NOPC`, `INIT` and `WRBLK` need no block word written. -/
theorem witness_ready_unwritten : State.reset.phase = .idle ∧ (∀ i, State.reset.written.get i = false) := by
  decide +kernel

theorem witness_ReadBlockReturnsWord :
    (busy .round 63).written.get 0 = true ∧ (busy .round 63).written.get 15 = true ∧
    (∃ u, exec (.wrblk 15 7) State.reset = .next u) := ⟨by decide +kernel, by decide +kernel, _, rfl⟩

theorem witness_ReadDigestReturnsWord : full.phase = .idle ∧ (busy .load 0).phase ≠ .idle := by decide +kernel

theorem witness_ReadStatusReturnsReady :
    (offered [.bus 0x0100000000#39]).phase = .idle ∧ (∃ u, step (offered [.bus 0x0100000000#39]) = .next u) ∧
    (offered [.bus 0x0100000000#39]).nextMove = .run .rdst := ⟨rfl, ⟨_, rfl⟩, by decide +kernel⟩

/-- Every row of the list of refusal reasons applies somewhere. -/
theorem witness_RefusalListIsExact :
    (offered [.bus 0x4000000002#39]).refused = none ∧
    (offered [.bus 0x4000000002#39]).pending = .bus 0x4000000002#39 :: [] ∧
    refusalReason State.reset 0x4000000002#39 = some .startUnwritten ∧
    refusalReason State.reset 0x4000000003#39 = some .startUnwritten ∧
    refusalReason State.reset 0x1f00000000#39 = some .readUnwritten ∧
    refusalReason (busy .accum 0) 0x4000000000#39 = some .writeWhileBusy ∧
    refusalReason (busy .accum 0) 0x5fffffffff#39 = some .writeWhileBusy ∧
    refusalReason (busy .accum 0) 0x4f00000005#39 = some .reservedOffset ∧
    refusalReason (busy .accum 0) 0x1f00000000#39 = none ∧ refusalReason full 0x4000000003#39 = none := by
  decide +kernel

theorem witness_NoWriteWhileBusy :
    (busy .load 0).phase ≠ .idle ∧ isWrite .nopc = true ∧ isWrite (.wrblk 15 0) = true ∧
    { busy .accum 0 with pending := [.bus 0x4200000000#39] }.pending = .bus 0x4200000000#39 :: [] ∧
    busWrites 0x4200000000#39 = true ∧ busWrites 0x4000000001#39 = true := by decide +kernel

theorem witness_UnwrittenBlockRefused :
    State.reset.phase = .idle ∧ { full with written := (Bank.fill true).put 15 false }.written.get 15 = false ∧
    (∃ u, exec (.wrblk 15 7) State.reset = .next u) ∧ (offered [.reset]).nextMove = .reset :=
  ⟨rfl, by decide +kernel, ⟨_, rfl⟩, rfl⟩

theorem witness_RefusedMarkIsSticky :
    step (offered [.bus 0x4000000004#39]) = refuse .ctrlReservedBits ∧
    { offered [.bus 0x4000000001#39, .engine, .reset] with refused := some .readCtrl }.refused = some .readCtrl ∧
    (∀ e ∈ (offered [.bus 0x4000000001#39, .engine, .reset]).pending.take 2, e ≠ .reset) ∧
    (offered [.bus 0x4000000001#39, .engine, .reset]).pending.head? ≠ some .reset ∧
    (offered [.reset]).pending.head? = some .reset ∧ (∃ u, step (offered [.reset]) = .next u) :=
  ⟨rfl, rfl, by decide, by decide, rfl, _, rfl⟩

theorem witness_MicroOpsComplete :
    isMicroOp .loadw = true ∧ isMicroOp (.expand 16) = true ∧ WellFormed (.expand 16) ∧ WellFormed (.expand 63) ∧
    ((Bank.fill false).put 15 true : Bank Bool 4).get 15 = true := by decide +kernel

theorem witness_ExpandComputesScheduleWord : 16#6 ≤ (16#6 : BitVec 6) ∧ 16#6 ≤ (63#6 : BitVec 6) := by decide

theorem witness_RoundUpdatesRegisters :
    (0x54da50e8 : Word) = (0x5be0cd19 : Word) + bsig1 0x510e527f + ch 0x510e527f 0x9b05688c 0x1f83d9ab +
      K.get 0 + 0x61626380 ∧
    (0x08909ae5 : Word) = bsig0 0x6a09e667 + maj 0x6a09e667 0xbb67ae85 0x3c6ef372 := by decide +kernel

theorem witness_ReadsFrame :
    isRead (.rdblk 15) = true ∧ (∃ u, exec (.rdblk 15) full = .next u) ∧ isRead (.rdh 7) = true ∧
    (∃ u, exec (.rdh 7) (busy .round 0) = .next u) ∧ isRead .rdst = true ∧ (∃ u, exec .rdst full = .next u) :=
  ⟨rfl, ⟨_, rfl⟩, rfl, ⟨_, rfl⟩, rfl, _, rfl⟩

theorem witness_WritesFrame :
    isWrite .nopc = true ∧ (∃ u, exec .nopc full = .next u) ∧ isWrite .init = true ∧
    (∃ u, exec .init full = .next u) ∧ isWrite .start = true ∧ (∃ u, exec .start full = .next u) ∧
    isWrite .initstart = true ∧ (∃ u, exec .initstart full = .next u) ∧ isWrite (.wrblk 15 1) = true ∧
    (∃ u, exec (.wrblk 15 1) full = .next u) :=
  ⟨rfl, ⟨_, rfl⟩, rfl, ⟨_, rfl⟩, rfl, ⟨_, rfl⟩, rfl, ⟨_, rfl⟩, rfl, _, rfl⟩

theorem witness_MicroOpsFrame :
    isMicroOp .loadw = true ∧ (∃ u, exec .loadw full = .next u) ∧ isMicroOp (.expand 16) = true ∧
    (∃ u, exec (.expand 16) full = .next u) ∧ isMicroOp .copy = true ∧ (∃ u, exec .copy full = .next u) ∧
    isMicroOp (.round 63) = true ∧ (∃ u, exec (.round 63) full = .next u) ∧ isMicroOp .accum = true ∧
    (∃ u, exec .accum full = .next u) :=
  ⟨rfl, ⟨_, rfl⟩, rfl, ⟨_, rfl⟩, rfl, ⟨_, rfl⟩, rfl, ⟨_, rfl⟩, rfl, _, rfl⟩

theorem witness_StepRunsTransaction :
    (offered [.bus 0x5f00000018#39, .engine]).refused = none ∧
    (offered [.bus 0x5f00000018#39, .engine]).pending = .bus 0x5f00000018#39 :: [.engine] ∧
    decode (.bus 0x5f00000018#39) = .ok (.wrblk 15 0x18) := by decide +kernel

/-- On the engine's turn and with nothing pending, at the ends of both loops. -/
theorem witness_StepRunsMicroOp :
    (busy .expand 16).refused = none ∧ (busy .expand 16).pending = [] ∧ (busy .expand 16).phase ≠ .idle ∧
    legalSelector .expand 16 ∧ legalSelector .expand 63 ∧ legalSelector .round 0 ∧ legalSelector .round 63 ∧
    { busy .round 63 with pending := [.engine, .reset] }.pending = .engine :: [.reset] :=
  ⟨rfl, rfl, by decide +kernel, by simp [legalSelector], by simp [legalSelector], trivial, trivial, rfl⟩

theorem witness_IdleEngineDoesNothing :
    State.reset.refused = none ∧ State.reset.pending = [] ∧ State.reset.phase = .idle ∧ State.reset.t = 0 ∧
    (offered [.engine, .engine]).pending = .engine :: [.engine] := ⟨rfl, rfl, rfl, rfl, rfl⟩

theorem witness_ResetAbortsAnything :
    { busy .round 40 with pending := [.reset, .engine], refused := some .readCtrl }.pending = .reset :: [.engine] := rfl

/-- A step for each writer of `H`, `M`, `W`, the working registers and `READY`. -/
theorem witness_writers :
    (offered [.bus 0x4000000001#39]).nextMove = .run .init ∧ (∃ u, step (offered [.bus 0x4000000001#39]) = .next u) ∧
    (offered [.bus 0x5fffffffff#39]).nextMove = .run (.wrblk 15 0xffffffff) ∧
    (∃ u, step (offered [.bus 0x5fffffffff#39]) = .next u) ∧
    { full with pending := [.bus 0x4000000003#39] }.nextMove = .run .initstart ∧
    (∃ u, step { full with pending := [.bus 0x4000000003#39] } = .next u) ∧
    (busy .load 0).nextMove = .run .loadw ∧ (∃ u, step (busy .load 0) = .next u) ∧
    (busy .expand 63).nextMove = .run (.expand 63) ∧ (∃ u, step (busy .expand 63) = .next u) ∧
    (busy .copy 0).nextMove = .run .copy ∧ (∃ u, step (busy .copy 0) = .next u) ∧
    (busy .round 63).nextMove = .run (.round 63) ∧ (∃ u, step (busy .round 63) = .next u) ∧
    (busy .accum 0).nextMove = .run .accum ∧ (∃ u, step (busy .accum 0) = .next u) ∧
    (offered [.reset]).nextMove = .reset ∧ (∃ u, step (offered [.reset]) = .next u) ∧
    State.reset.nextMove = .idle ∧ (∃ u, step State.reset = .next u) := by
  refine ⟨by decide +kernel, ⟨_, rfl⟩, by decide +kernel, ⟨_, rfl⟩, by decide +kernel, ⟨_, rfl⟩, by decide +kernel,
    ⟨_, rfl⟩, by decide +kernel, ⟨_, rfl⟩, by decide +kernel, ⟨_, rfl⟩, by decide +kernel, ⟨_, rfl⟩,
    by decide +kernel, ⟨_, rfl⟩, by decide +kernel, ⟨_, rfl⟩, by decide +kernel, ⟨_, rfl⟩⟩

theorem witness_BusyEngineProgresses :
    (busy .expand 63).refused = none ∧ (busy .expand 63).pending = [] ∧ (busy .expand 63).phase ≠ .idle ∧
    legalSelector .expand 63 ∧ legalSelector .accum 0 ∧
    { busy .accum 0 with pending := [.engine] }.pending.head? = some .engine :=
  ⟨rfl, rfl, by decide +kernel, by simp [legalSelector], rfl, rfl⟩

theorem witness_NoStepFaults :
    legalSelector State.reset.phase State.reset.t ∧ isMicroOp (.expand 15) = true ∧ (0#6 : BitVec 6) < 16#6 ∧
    (15#6 : BitVec 6) < 16#6 ∧ (busy .expand 15).refused = none ∧ (busy .expand 15).pending = [] ∧
    ¬ legalSelector (busy .expand 15).phase (busy .expand 15).t ∧ ¬ legalSelector .idle 1 ∧ ¬ legalSelector .accum 63 :=
  ⟨rfl, rfl, by decide, by decide, rfl, rfl, by simp [busy, legalSelector], by simp [legalSelector],
    by simp [legalSelector]⟩

/-- The "abc" compression at the end of its expander, and at the end of its rounds. -/
def expanded : State := { busy .copy 0 with W := sched abcBlock }
def rounded : State :=
  { busy .accum 0 with W := sched abcBlock, reg := rounds (workingOf IV) (sched abcBlock) 64 }

theorem witness_Inv_copy : expanded.Inv ∧ expanded.phase = .copy :=
  ⟨⟨rfl, fun _ => witness_ready_written.2, fun _ _ => rfl, fun n hn => by cases hn⟩, rfl⟩

theorem witness_Inv_accum : rounded.Inv ∧ rounded.nextMove = .run .accum :=
  ⟨⟨rfl, fun _ => witness_ready_written.2, fun _ _ => rfl, fun n hn => by cases hn; rfl⟩, by rfl⟩

/-- Steps from states that meet the invariant, idle and busy. -/
theorem witness_StepKeepsInvariant :
    expanded.Inv ∧ (∃ u, step expanded = .next u) ∧ rounded.Inv ∧ (∃ u, step rounded = .next u) :=
  ⟨witness_Inv_copy.1, ⟨_, rfl⟩, witness_Inv_accum.1, _, rfl⟩

theorem witness_StartComputesCompression :
    { full with pending := [eventOf .start] }.refused = none ∧
    { full with pending := [eventOf .start] }.phase = .idle ∧
    (∀ i, { full with pending := [eventOf .start] }.written.get i = true) := by decide +kernel

/-- Waiting with polls, early reads of the digest and block reads between the engine's turns. -/
theorem witness_ReadsDoNotDisturbCompression :
    (∀ e ∈ [eventOf .rdst, .engine, eventOf (.rdh 7), .engine, eventOf (.rdblk 15)], isWaiting e = true) ∧
    (List.replicate 114 Event.engine).count .engine < 115 ∧ 115 ≤ (List.replicate 115 Event.engine).count .engine := by
  decide +kernel

/-- What the host sends for the empty message's one block after its start, and the turns the engine takes: two polls
that return 0, the rest of the compression, the poll that ends the `WAIT`, and a last turn before the digest is read. -/
def waitAndRead : List Event :=
  [eventOf .rdst, .engine, eventOf .rdst] ++ List.replicate 114 .engine ++ [eventOf .rdst, .engine] ++
    rddigest.map eventOf

/-- The whole of it (`44_host_contract.md` R156). -/
def emptyMessageEvents : List Event :=
  [eventOf .init] ++ (ldblk (blockAt (pad []) 0)).map eventOf ++ [eventOf .start] ++ waitAndRead

theorem witness_CommandSequenceComputesDigest :
    (offered emptyMessageEvents).refused = none ∧ (offered emptyMessageEvents).phase = .idle ∧
    (offered emptyMessageEvents).t = 0#6 ∧ performs (digestProgram []) 145 (offered emptyMessageEvents) = true := by
  decide +kernel

/-- The two other forms of the sequence, from the reset state. -/
theorem witness_CommandSequenceComputesDigest_short :
    performs (digestProgramFused []) 144
      (offered ((ldblk (blockAt (pad []) 0)).map eventOf ++ [eventOf .initstart] ++ waitAndRead)) = true ∧
    State.reset.H = IV ∧
    performs (blocksProgram []) 144
      (offered ((ldblk (blockAt (pad []) 0)).map eventOf ++ [eventOf .start] ++ waitAndRead)) = true := by
  decide +kernel

/-- `LDBLK` in another order and with words omitted, a `WAIT` that takes two polls, `HASHBLK`, `FIRSTBLK`, `RDDIGEST`. -/
theorem witness_PseudoCommandsRun :
    (∀ i, i ∈ [15#4, 0#4] ∨ (full.M.get i = abcBlock.get i ∧ full.written.get i = true)) ∧
    performs (commands (writeWords [15#4, 0#4] abcBlock)) 3
      { full with pending := [eventOf (.wrblk 15 0x18), .engine, eventOf (.wrblk 0 0x61626380)] } = true ∧
    legalSelector .accum 0 ∧
    performs [.wait] 3 { busy .accum 0 with pending := [eventOf .rdst, .engine] ++ eventOf .rdst :: [] } = true ∧
    stepsLeft .accum 0 ≤ [eventOf .rdst, .engine].count .engine ∧
    performs (hashblk abcBlock) 135 (offered ((ldblk abcBlock).map eventOf ++ [eventOf .start] ++ waitAndRead)) = true ∧
    performs (firstblk abcBlock) 135
      (offered ((ldblk abcBlock).map eventOf ++ [eventOf .initstart] ++ waitAndRead)) = true ∧
    performs (commands rddigest) 9 (offered (rddigest.map eventOf ++ [.engine])) = true := by
  refine ⟨by decide +kernel, by decide +kernel, rfl, by decide +kernel, by decide +kernel,
    by decide +kernel, by decide +kernel, by decide +kernel⟩

/-- Two idle engines that an earlier use has left different. -/
theorem witness_DeadStateIsUnobservable :
    State.SameLive full { full with W := Bank.fill 1, reg := ⟨1, 2, 3, 4, 5, 6, 7, 8⟩ } :=
  ⟨rfl, rfl, rfl, rfl, rfl, rfl, rfl, rfl, rfl, fun _ h => absurd h (Nat.not_lt_zero _), fun h => absurd rfl h⟩

/-- The index ranges of the word-function and encoding statements at their ends. -/
theorem witness_ranges :
    (0 : Nat) < 32 ∧ (31 : Nat) < 32 ∧ 1 ≤ (1 : Nat) ∧ (31 : Nat) ≤ 31 ∧ (7 : Nat) < 8 ∧ (3 : Nat) < 4 ∧ 16#6 ≤ (16#6 : BitVec 6) ∧
    16#6 ≤ (63#6 : BitVec 6) := by decide

theorem witness_PaddingLengths :
    (2 : Nat) < ([0x61, 0x62, 0x63] : List Byte).length ∧ (List.replicate 55 (0x61 : Byte)).length % 64 ≤ 55 ∧
    56 ≤ (List.replicate 56 (0x61 : Byte)).length % 64 ∧ (List.replicate 64 (0x61 : Byte)).length % 64 ≤ 55 ∧
    0 < padZeros 0 ∧ 62 < padZeros 56 ∧ (7 : Nat) < 8 ∧ (0 + 1 + 55) % 64 = 56 := by
  decide +kernel

theorem witness_PaddingInjective :
    ([0x61] : List Byte).length < 2 ^ 61 ∧ pad [0x61] = pad [0x61] := ⟨by decide, rfl⟩

theorem witness_BlocksCoverMessage : (pad []).length = 64 * 1 ∧ (0 : Nat) < 1 := by decide +kernel

theorem witness_LoadBlockFillsBuffer :
    State.reset.refused = none ∧ State.reset.phase = .idle ∧
    (offered ((ldblk abcBlock).map eventOf ++ [.engine])).pending = (ldblk abcBlock).map eventOf ++ [.engine] :=
  ⟨rfl, rfl, rfl⟩

end Sys2Proof.Tests
end

section
/-!
PROOFS. What a step does on the engine's turn.
-/

namespace Sys2Proof.Machine

variable {s : State} {rest : List Event}

/-- On the engine's turn, or with nothing pending, the state after the fetch keeps the events behind the turn. -/
theorem afterFetch_of_engine (hp : s.pending = .engine :: rest ∨ (s.pending = [] ∧ rest = [])) :
    s.afterFetch = { s with pending := rest } := by
  rcases hp with hp | ⟨hp, rfl⟩ <;> simp [State.afterFetch, hp]

/-- On the engine's turn in an unmarked run, the step runs the micro-operation that the phase and the index name. -/
theorem step_of_engine_microOp {i : Instr} (hr : s.refused = none)
    (hp : s.pending = .engine :: rest ∨ (s.pending = [] ∧ rest = [])) (hm : microOp s.phase s.t = .ok i) :
    step s = exec i { s with pending := rest } := by
  have hrun : s.nextMove = .run i := (nextMove_of_engine hr hp).trans (seqMove_eq_run.mpr hm)
  rw [step_of_run hrun, afterFetch_of_engine hp]

/-- The selector of a phase and an index decodes to the micro-operation they name. -/
theorem decode_selector_of_microOp {p : Phase} {t : BitVec 6} {i : Instr} (hm : microOp p t = .ok i) :
    decode (.seq (selector p t)) = .ok i :=
  decode_seq_eq_ok.mpr ((decodeSeq_selector p t).trans hm)

/-- Settles O31: a legal selector other than `IDLE`'s names a micro-operation, which is what the selector decodes to
and what the step runs. That the engine takes its turn when nothing is pending is the choice of log entry 4. -/
theorem stepRunsMicroOp : Obligations.StepRunsMicroOp := by
  intro s rest hr hp hbusy hlegal
  obtain ⟨i, hm⟩ := microOp_of_legal hlegal hbusy
  exact ⟨i, decode_selector_of_microOp hm, (isMicroOp_of_microOp hm).1, step_of_engine_microOp hr hp hm⟩

end Sys2Proof.Machine
end

section
/-!
PROOFS. How an instruction and a step move the sequencer: `(phase, t)`, and with it `READY` and the count of
micro-operations left.
-/

namespace Sys2Proof.Machine

variable {s u : State} {i : Instr} {t : BitVec 6}

/-- Where the loop on `t` leads the sequencer (`10_state.md` R28). -/
theorem State.loopOr_selector (s : State) (p q : Phase) (t : BitVec 6) :
    ((s.loopOr p q t).phase, (s.loopOr p q t).t) = if t < 63#6 then (p, t + 1#6) else (q, 0#6) := by
  unfold State.loopOr; split <;> rfl

/-- A micro-operation moves the sequencer by the row of R28's table for its own selector. -/
theorem exec_microOp_selector (hm : microOp s.phase s.t = .ok i) (h : exec i s = .next u) :
    (u.phase, u.t) = nextSelector s.phase s.t := by
  rcases microOp_eq_ok.mp hm with
    ⟨hp, -, rfl⟩ | ⟨hp, -, rfl⟩ | ⟨hp, -, rfl⟩ | ⟨hp, rfl⟩ | ⟨hp, -, rfl⟩ <;>
    obtain rfl : u = _ := exec_cases h <;> rw [hp]
  · rfl
  · exact State.loopOr_selector ..
  · rfl
  · exact State.loopOr_selector ..
  · rfl

/-- A host command moves the sequencer only when it is `START` or `INITSTART`, and then from `IDLE` to `(LOAD, 0)`. -/
theorem exec_command_selector (hc : isMicroOp i = false) (h : exec i s = .next u) :
    ((i = .start ∨ i = .initstart) ∧ s.phase = .idle ∧ (u.phase, u.t) = (.load, 0)) ∨
      (u.phase, u.t) = (s.phase, s.t) := by
  have hu := exec_cases h
  cases i with
  | start => obtain ⟨hp, -, rfl⟩ := hu; exact .inl ⟨.inl rfl, hp, rfl⟩
  | initstart => obtain ⟨hp, -, rfl⟩ := hu; exact .inl ⟨.inr rfl, hp, rfl⟩
  | nopc | init | wrblk => obtain ⟨-, rfl⟩ := hu; exact .inr rfl
  | rdblk | rdh | rdst => obtain rfl : u = _ := hu; exact .inr rfl
  | loadw | expand | copy | round | accum => cases hc

/-- Fetching leaves the selector alone, so a micro-operation still runs from its own selector. -/
theorem microOp_afterFetch (h : s.nextMove = .run i) (hk : isMicroOp i = true) :
    microOp s.afterFetch.phase s.afterFetch.t = .ok i :=
  microOp_of_nextMove (s := s) h hk

/-- Settles O39: a micro-operation moves the sequencer by the row of its own selector, `START` and `INITSTART` start a
compression from `IDLE`, reset returns to `(IDLE, 0)`, and nothing else moves it. -/
theorem sequencerTransitions : Obligations.SequencerTransitions := by
  intro s u h
  rcases step_cases h with ⟨hr, rfl⟩ | ⟨i, hi, he⟩ | ⟨hn, rfl⟩
  · exact .inr (.inr (.inl ⟨hr, rfl⟩))
  · cases hk : isMicroOp i with
    | true => exact .inl ⟨i, hi, hk, exec_microOp_selector (s := s.afterFetch) (microOp_afterFetch hi hk) he⟩
    | false =>
      rcases exec_command_selector hk he with ⟨rfl | rfl, hp, hu⟩ | hu
      · exact .inr (.inl ⟨.inl hi, hp, hu⟩)
      · exact .inr (.inl ⟨.inr hi, hp, hu⟩)
      · exact .inr (.inr (.inr ⟨hu, fun j hj => by cases hi.symm.trans hj; exact hk⟩))
  · exact .inr (.inr (.inr ⟨rfl, fun j hj => by cases hn.symm.trans hj⟩))

/-! ### `READY` -/

/-- `READY` is bit 0 of `STATUS` (`10_state.md` R31). -/
theorem State.statusWord_bit_zero (s : State) : s.statusWord.getLsbD 0 = s.ready := by
  unfold State.statusWord; cases s.ready <;> rfl

/-- The only row of R28's table that ends in `IDLE`, from a busy engine, is `ACCUM`'s. -/
theorem phase_of_nextSelector_idle {p : Phase} (hp : p ≠ .idle) (h : (nextSelector p t).1 = .idle) : p = .accum := by
  cases p with
  | idle => exact absurd rfl hp
  | load | copy => cases h
  | expand | round => simp only [nextSelector] at h; split at h <;> cases h
  | accum => rfl

/-- `READY` falls only by `START` or `INITSTART`. -/
theorem step_clears_ready (h : step s = .next u) (hs : s.ready = true) (hu : u.ready = false) :
    s.nextMove = .run .start ∨ s.nextMove = .run .initstart := by
  rw [State.ready_iff] at hs
  rw [State.not_ready_iff] at hu
  rcases sequencerTransitions s u h with ⟨i, hi, hk, -⟩ | ⟨hi, -⟩ | ⟨-, he⟩ | ⟨he, -⟩
  · exact absurd hs (busy_of_microOp (microOp_of_nextMove hi hk))
  · exact hi
  · exact absurd (congrArg Prod.fst he) hu
  · exact absurd ((congrArg Prod.fst he).trans hs) hu

/-- `READY` rises only by `ACCUM` or reset. -/
theorem step_sets_ready (h : step s = .next u) (hs : s.ready = false) (hu : u.ready = true) :
    s.nextMove = .run .accum ∨ s.nextMove = .reset := by
  rw [State.not_ready_iff] at hs
  rw [State.ready_iff] at hu
  rcases sequencerTransitions s u h with ⟨i, hi, hk, he⟩ | ⟨-, hp, -⟩ | ⟨hr, -⟩ | ⟨he, -⟩
  · have hp := phase_of_nextSelector_idle hs ((congrArg Prod.fst he).symm.trans hu)
    obtain ⟨-, rfl⟩ : s.t = 0#6 ∧ i = .accum := by simpa [hp] using microOp_eq_ok.mp (microOp_of_nextMove hi hk)
    exact .inl hi
  · exact absurd hp hs
  · exact .inr hr
  · exact absurd ((congrArg Prod.fst he).symm.trans hu) hs

/-- Settles O38: of the sequencer's transitions only those of `START` and `INITSTART` leave `IDLE`, and only `ACCUM`'s
and reset's enter it. -/
theorem readyWriters : Obligations.ReadyWriters := by
  refine ⟨fun s => ⟨State.ready_iff, s.statusWord_bit_zero⟩,
    fun s u h => ⟨step_clears_ready h, step_sets_ready h, ?_, ?_⟩⟩
  · rintro (hi | hi) <;> rw [step_of_run hi] at h
    · obtain ⟨-, -, rfl⟩ := execStart_eq_next.mp h; rfl
    · obtain ⟨-, -, rfl⟩ := execInitstart_eq_next.mp h; rfl
  · rintro (hi | hr)
    · rw [step_of_run hi] at h; obtain rfl := execAccum_eq_next.mp h; rfl
    · rw [step_of_reset hr] at h; cases h; rfl

/-! ### The engine's turn -/

/-- A micro-operation run from its own selector always has a next state. -/
theorem exec_microOp_completes (hm : microOp s.phase s.t = .ok i) : ∃ u, exec i s = .next u := by
  rcases microOp_eq_ok.mp hm with
    ⟨-, -, rfl⟩ | ⟨-, h16, rfl⟩ | ⟨-, -, rfl⟩ | ⟨-, rfl⟩ | ⟨-, -, rfl⟩
  · exact ⟨_, rfl⟩
  · exact ⟨_, execExpand_eq_next.mpr ⟨h16, rfl⟩⟩
  · exact ⟨_, rfl⟩
  · exact ⟨_, rfl⟩
  · exact ⟨_, rfl⟩

/-- Each row of R28's table leaves a compression one micro-operation less. -/
theorem stepsLeft_nextSelector {p : Phase} (hl : legalSelector p t) (hp : p ≠ .idle) :
    stepsLeft (nextSelector p t).1 (nextSelector p t).2 + 1 = stepsLeft p t := by
  cases p with
  | idle => exact absurd rfl hp
  | load | copy | accum => rfl
  | expand | round => simp only [nextSelector]; split <;> simp only [stepsLeft] <;> bv_omega

/-- Settles O40: a legal selector names a micro-operation, which has a next state and moves the sequencer by its row.
That the engine takes its turn when nothing is pending is the choice of log entry 4. -/
theorem busyEngineProgresses : Obligations.BusyEngineProgresses := by
  refine ⟨rfl, fun s hr hp hbusy hlegal => ?_⟩
  have hturn : s.pending = .engine :: s.pending.tail ∨ (s.pending = [] ∧ s.pending.tail = []) := by
    rcases hp with hp | hp
    · exact .inr ⟨hp, by rw [hp]; rfl⟩
    · exact .inl (List.eq_cons_of_mem_head? hp)
  obtain ⟨i, hm⟩ := microOp_of_legal hlegal hbusy
  obtain ⟨u, hu⟩ := exec_microOp_completes (s := { s with pending := s.pending.tail }) hm
  have hsel : (u.phase, u.t) = nextSelector s.phase s.t :=
    exec_microOp_selector (s := { s with pending := s.pending.tail }) hm hu
  refine ⟨u, (step_of_engine_microOp hr hturn hm).trans hu, ?_⟩
  rw [← stepsLeft_nextSelector hlegal hbusy, ← hsel]

/-- Settles O32: the selector of `(IDLE, 0)` names no micro-operation. That an idle turn is a step is the choice of log
entry 4. -/
theorem idleEngineDoesNothing : Obligations.IdleEngineDoesNothing := by
  intro s rest hr hp hidle ht
  have hmove : s.nextMove = .idle := by rw [nextMove_of_engine hr hp, seqMove_eq, hidle, ht]; rfl
  rw [step_of_idle hmove, afterFetch_of_engine hp]

end Sys2Proof.Machine
end

section
/-!
PROOFS. Which instructions write each part of the state: the hash state, the block buffer, the schedule and the
working registers.
-/

namespace Sys2Proof.Machine

variable {s u : State} {i : Instr}

/-- The instructions that write `H`, and what they leave in it (`10_state.md` R21). -/
theorem exec_hashState (h : exec i s = .next u) :
    u.H = s.H ∨ ((i = .init ∨ i = .initstart) ∧ u.H = IV) ∨ (i = .accum ∧ u.H = accumulate s.H s.reg) := by
  have hu := exec_cases h
  cases i with
  | init => obtain ⟨-, rfl⟩ := hu; exact .inr (.inl ⟨.inl rfl, rfl⟩)
  | initstart => obtain ⟨-, -, rfl⟩ := hu; exact .inr (.inl ⟨.inr rfl, rfl⟩)
  | accum => obtain rfl : u = _ := hu; exact .inr (.inr ⟨rfl, rfl⟩)
  | _ => left; simp_all

/-- `WRBLK` writes the block word of its own index and marks it written; no other instruction touches the block buffer
(`10_state.md` R22). -/
theorem exec_blockWord (h : exec i s = .next u) (j : BitVec 4) :
    (u.M.get j = s.M.get j ∧ u.written.get j = s.written.get j) ∨
      ∃ v, i = .wrblk j v ∧ u.M.get j = v ∧ u.written.get j = true := by
  have hu := exec_cases h
  cases i with
  | wrblk k v =>
    obtain ⟨-, rfl⟩ := hu
    by_cases hj : j = k
    · subst hj; exact .inr ⟨v, rfl, by simp, by simp⟩
    · exact .inl ⟨Bank.get_put_ne _ _ hj, Bank.get_put_ne _ _ hj⟩
  | _ => left; simp_all

/-- `LOADW` writes schedule words below 16 and `EXPAND[t]` the word `t`; no other instruction writes one
(`10_state.md` R23). -/
theorem exec_scheduleWord (h : exec i s = .next u) (j : BitVec 6) :
    u.W.get j = s.W.get j ∨ (i = .loadw ∧ j < 16#6) ∨ i = .expand j := by
  have hu := exec_cases h
  cases i with
  | loadw =>
    obtain rfl : u = _ := hu
    by_cases hj : j < 16#6
    · exact .inr (.inl ⟨rfl, hj⟩)
    · exact .inl (loadSchedule_get_ge _ _ hj)
  | expand t =>
    obtain rfl : u = _ := hu
    by_cases hj : j = t
    · exact .inr (.inr (by rw [hj]))
    · exact .inl (by simpa using Bank.get_put_ne _ _ hj)
  | _ => left; simp_all

/-- Only `COPY` and `ROUND` write the working registers (`10_state.md` R24). -/
theorem exec_working (h : exec i s = .next u) : u.reg = s.reg ∨ i = .copy ∨ ∃ t, i = .round t := by
  have hu := exec_cases h
  cases i with
  | copy => exact .inr (.inl rfl)
  | round t => exact .inr (.inr ⟨t, rfl⟩)
  | _ => left; simp_all

/-- Settles O35: reset loads `IV`, and of the instructions only `INIT`, `INITSTART` and `ACCUM` write `H`. -/
theorem hashStateWriters : Obligations.HashStateWriters := by
  intro s u h
  rcases step_cases h with ⟨hr, rfl⟩ | ⟨i, hi, he⟩ | ⟨-, rfl⟩
  · exact .inr (.inl ⟨.inr (.inr hr), rfl⟩)
  · rcases exec_hashState he with hu | ⟨rfl | rfl, hu⟩ | ⟨rfl, hu⟩
    · exact .inl hu
    · exact .inr (.inl ⟨.inl hi, hu⟩)
    · exact .inr (.inl ⟨.inr (.inl hi), hu⟩)
    · exact .inr (.inr ⟨hi, hu⟩)
  · exact .inl rfl

/-- Settles O36: of the instructions only `WRBLK` touches the block buffer, and an idle turn touches nothing. -/
theorem blockBufferWriters : Obligations.BlockBufferWriters := by
  intro s u j h hnr
  rcases step_cases h with ⟨hr, -⟩ | ⟨i, hi, he⟩ | ⟨-, rfl⟩
  · exact absurd hr hnr
  · rcases exec_blockWord he j with hu | ⟨v, rfl, hu⟩
    · exact .inl hu
    · exact .inr ⟨v, hi, hu⟩
  · exact .inl ⟨rfl, rfl⟩

/-- Settles O37: of the instructions only `LOADW` and `EXPAND` write `W` and only `COPY` and `ROUND` the working
registers, and an idle turn writes neither. -/
theorem hiddenStateWriters : Obligations.HiddenStateWriters := by
  intro s u h hnr
  rcases step_cases h with ⟨hr, -⟩ | ⟨i, hi, he⟩ | ⟨-, rfl⟩
  · exact absurd hr hnr
  · simp only [hi, Move.run.injEq]
    exact ⟨exec_scheduleWord (s := s.afterFetch) he, exec_working (s := s.afterFetch) he⟩
  · exact ⟨fun _ => .inl rfl, .inl rfl⟩

/-- Settles O34: every field by the definition of the state after reset, each block word's mark from a bank filled with
`false`. -/
theorem resetStateValues : Obligations.ResetStateValues :=
  ⟨fun _ => rfl, rfl, rfl, rfl, rfl, Bank.get_fill false, rfl⟩

end Sys2Proof.Machine
end

section
/-!
PROOFS. The invariant of a compression holds after reset, and every step keeps it.
-/

namespace Sys2Proof.Machine

variable {s u : State} {i : Instr}

/-- Settles O42: the state after reset is `(IDLE, 0)`. -/
theorem resetMeetsInvariant : Obligations.ResetMeetsInvariant :=
  State.Inv.of_idle rfl rfl

/-- In `IDLE` the legal index is 0. -/
theorem State.Inv.index_of_idle (hI : s.Inv) (hp : s.phase = .idle) : s.t = 0#6 := by
  have hl := hI.legal
  rwa [hp] at hl

/-- In `(LOAD, 0)` the invariant asks no more than a written block. -/
theorem State.Inv.of_load (hp : u.phase = .load) (ht : u.t = 0#6) (hw : ∀ i, u.written.get i = true) : u.Inv := by
  refine ⟨?_, fun _ => hw, fun j hj => ?_, fun n hn => ?_⟩
  · rw [hp, ht]; rfl
  · rw [hp] at hj; exact absurd hj (Nat.not_lt_zero _)
  · rw [hp] at hn; cases hn

/-- `ACCUM` ends the compression in `(IDLE, 0)`. -/
theorem State.Inv.of_accum (h : exec .accum s = .next u) : u.Inv := by
  obtain rfl := execAccum_eq_next.mp h
  exact .of_idle rfl rfl

/-- A micro-operation run from its own selector keeps the invariant. -/
theorem State.Inv.exec_microOp (hI : s.Inv) (hm : microOp s.phase s.t = .ok i) (h : exec i s = .next u) : u.Inv := by
  rcases microOp_eq_ok.mp hm with
    ⟨-, -, rfl⟩ | ⟨-, -, rfl⟩ | ⟨-, -, rfl⟩ | ⟨-, rfl⟩ | ⟨-, -, rfl⟩
  · exact hI.loadw hm h
  · exact hI.expand hm h
  · exact hI.copy hm h
  · exact hI.round hm h
  · exact .of_accum h

/-- A host command keeps the invariant: a write finds the engine in `(IDLE, 0)` and leaves it there, `START` and
`INITSTART` begin on a written block, and a read changes nothing the invariant speaks of. -/
theorem State.Inv.exec_command (hI : s.Inv) (hc : isMicroOp i = false) (h : exec i s = .next u) : u.Inv := by
  have hu := exec_cases h
  cases i with
  | nopc => obtain ⟨-, rfl⟩ := hu; exact hI
  | init | wrblk => obtain ⟨hp, rfl⟩ := hu; exact .of_idle hp (hI.index_of_idle hp)
  | start | initstart => obtain ⟨-, hw, rfl⟩ := hu; exact .of_load rfl rfl hw
  | rdblk | rdh | rdst => obtain rfl : u = _ := hu; exact hI.congr rfl rfl rfl rfl rfl rfl rfl
  | loadw | expand | copy | round | accum => cases hc

/-- The invariant does not speak of the pending events. -/
theorem State.Inv.fetched (hI : s.Inv) : s.afterFetch.Inv :=
  hI.congr rfl rfl rfl rfl rfl rfl rfl

/-- Settles O43: a reset leads to `(IDLE, 0)`, an idle turn changes nothing the invariant speaks of, and every
micro-operation, which runs from its own selector, and every command keeps it. -/
theorem stepKeepsInvariant : Obligations.StepKeepsInvariant := by
  intro s u hI h
  rcases step_cases h with ⟨-, rfl⟩ | ⟨i, hi, he⟩ | ⟨-, rfl⟩
  · exact .of_idle rfl rfl
  · cases hk : isMicroOp i with
    | true => exact hI.fetched.exec_microOp (microOp_afterFetch hi hk) he
    | false => exact hI.fetched.exec_command hk he
  · exact hI.fetched

end Sys2Proof.Machine
end

section
/-!
PROOFS. The bytes of a block and its words, both ways (`20_memory.md` R45).
-/

namespace Sys2Proof.Machine

/-- Byte `k` of a word as a number: the word's digit in base `2^8` (`20_memory.md` R45). -/
theorem wordByte_toNat (w : Word) (k : BitVec 2) :
    (wordByte w k).toNat = w.toNat / 2 ^ (24 - 8 * k.toNat) % 2 ^ 8 := by
  rw [wordByte, BitVec.extractLsb'_toNat, Nat.shiftRight_eq_div_pow]

/-- Byte `k` of four packed bytes is the `k`-th of them. -/
theorem wordByte_packWord (f : BitVec 2 → Byte) (k : BitVec 2) :
    wordByte (packWord (f 0#2) (f 1#2) (f 2#2) (f 3#2)) k = f k := by
  have h1 := (f 1#2).isLt
  have h2 := (f 2#2).isLt
  have h3 := (f 3#2).isLt
  have hk : k = 0#2 ∨ k = 1#2 ∨ k = 2#2 ∨ k = 3#2 := by revert k; decide
  apply BitVec.eq_of_toNat_eq
  rw [wordByte_toNat, packWord_toNat]
  rcases hk with rfl | rfl | rfl | rfl <;> norm_num <;> omega

/-- The four bytes of a word, packed, are the word. -/
theorem packWord_wordByte (w : Word) :
    packWord (wordByte w 0#2) (wordByte w 1#2) (wordByte w 2#2) (wordByte w 3#2) = w := by
  apply BitVec.eq_of_toNat_eq
  rw [packWord_toNat]
  simp only [wordByte_toNat]
  norm_num
  omega

/-- The place of a byte in its block is its word's index followed by its place in the word. -/
theorem byteIndex_eq_append (j : BitVec 6) : j.extractLsb' 2 4 ++ j.extractLsb' 0 2 = j := by
  revert j; decide

/-- Word `i` of 64 packed bytes. -/
theorem blockOfBytes_get (b : BitVec 6 → Byte) (i : BitVec 4) :
    (blockOfBytes b).get i = packWord (b (i ++ 0#2)) (b (i ++ 1#2)) (b (i ++ 2#2)) (b (i ++ 3#2)) :=
  Bank.get_build _ i

/-- Byte `j` of 64 packed bytes is byte `j` of them. -/
theorem blockByte_blockOfBytes (b : BitVec 6 → Byte) (j : BitVec 6) : blockByte (blockOfBytes b) j = b j := by
  rw [blockByte, blockOfBytes_get, wordByte_packWord fun k => b (j.extractLsb' 2 4 ++ k), byteIndex_eq_append]

/-- Packing the bytes of a block gives the block. -/
theorem blockOfBytes_blockByte (m : Bank Word 4) : blockOfBytes (blockByte m) = m :=
  Bank.ext_get fun i => by
    rw [blockOfBytes_get]
    simp only [blockByte_append, packWord_wordByte]

/-- Settles O55: a block and its 64 bytes determine each other word by word, and a packed word is the big-endian
number of its four bytes. -/
theorem blockBytesBigEndian : Obligations.BlockBytesBigEndian := by
  refine ⟨blockByte_blockOfBytes, blockOfBytes_blockByte, fun b i => ?_⟩
  rw [blockOfBytes_get, packWord_toNat]

end Sys2Proof.Machine
end

section
/-!
PROOFS. What a host transaction does to the state: a read's frame, and the step that runs a pending command.
-/

namespace Sys2Proof.Machine

variable {s : State}

/-- Settles O27: each of the three reads only replies with a word, and `RDH` may also draw a free one, which the
model's own counter shows (log entry 2). -/
theorem readsFrame : Obligations.ReadsFrame := by
  intro s u i hr h
  have hu := exec_cases h
  cases i with
  | rdblk j => obtain rfl : u = _ := hu; exact ⟨s.M.get j, rfl⟩
  | rdh j => obtain rfl : u = _ := hu; exact ⟨s.digestWord j, rfl⟩
  | rdst => obtain rfl : u = _ := hu; exact ⟨s.statusWord, rfl⟩
  | nopc | init | start | initstart | wrblk | loadw | expand | copy | round | accum => cases hr

/-- With a transaction word the oldest pending event, the state after the fetch keeps the events behind it. -/
theorem afterFetch_of_bus {w : BitVec 39} {rest : List Event} (hp : s.pending = .bus w :: rest) :
    s.afterFetch = { s with pending := rest } := by
  rw [State.afterFetch, hp, List.tail_cons]

/-- Settles O30: in an unmarked run the next move is the pending transaction's, and a word that decodes asks to run
its command. -/
theorem stepRunsTransaction : Obligations.StepRunsTransaction := by
  intro s w rest i hr hp hd
  have hrun : s.nextMove = .run i :=
    (nextMove_of_bus hr hp).trans (busMove_eq_run.mpr (decode_bus_eq_ok.mp hd))
  rw [step_of_run hrun, afterFetch_of_bus hp]

end Sys2Proof.Machine
end

section
/-!
PROOFS. The encodings: what the encoder emits decodes to its instruction, and every word that decodes is what the
encoder emits, a read's ignored `wdata` aside (`30_encoding.md` R60 to R67).
-/

namespace Sys2Proof.Machine

variable {i : Instr} {p : Phase} {t : BitVec 6} {w : BitVec 39} {x : BitVec 9}

/-! ### From an instruction to its word and back -/

/-- A micro-operation's encoding is the selector that names it (`30_encoding.md` R67). -/
theorem encode_of_microOp (hm : microOp p t = .ok i) : encode i = .seq (selector p t) := by
  rcases microOp_eq_ok.mp hm with
    ⟨rfl, rfl, rfl⟩ | ⟨rfl, -, rfl⟩ | ⟨rfl, rfl, rfl⟩ | ⟨rfl, rfl⟩ | ⟨rfl, rfl, rfl⟩ <;> rfl

/-- The encoding of a command decodes to it. -/
theorem decode_encode_command (hc : isMicroOp i = false) : decode (encode i) = .ok i := by
  cases i with
  | nopc | init | start | initstart | rdst => rfl
  | wrblk j v => exact decode_bus_eq_ok.mpr (decodeBus_wrblk j v)
  | rdblk j => exact decode_bus_eq_ok.mpr (decodeBus_rdblk j 0#32)
  | rdh j => exact decode_bus_eq_ok.mpr (decodeBus_rdh j 0#32)
  | loadw | expand | copy | round | accum => cases hc

/-- A well-formed micro-operation is named by some phase and index. -/
theorem microOp_of_wellFormed (hm : isMicroOp i = true) (hw : WellFormed i) : ∃ p t, microOp p t = .ok i := by
  cases i with
  | loadw => exact ⟨.load, 0#6, rfl⟩
  | expand t => exact ⟨.expand, t, if_pos hw⟩
  | copy => exact ⟨.copy, 0#6, rfl⟩
  | round t => exact ⟨.round, t, rfl⟩
  | accum => exact ⟨.accum, 0#6, rfl⟩
  | nopc | init | start | initstart | wrblk | rdblk | rdh | rdst => cases hm

/-- Settles O2: a command by its transaction word's fields, a micro-operation by the phase and the index that its
selector holds. -/
theorem decodeEncodeRoundTrip : Obligations.DecodeEncodeRoundTrip := by
  intro i hw
  cases hk : isMicroOp i with
  | false => exact decode_encode_command hk
  | true =>
    obtain ⟨p, t, hm⟩ := microOp_of_wellFormed hk hw
    rw [encode_of_microOp hm]
    exact decode_selector_of_microOp hm

/-! ### From a selector to its micro-operation and back -/

/-- A selector with a phase is its two fields. -/
theorem selector_fields (h : selPhase x = some p) : selector p (selIndex x) = x := by
  rw [selector, code_of_phaseOfCode h]
  clear h
  revert x; decide

/-- The selectors that decode are those of the phases and indices that name a micro-operation. -/
theorem decodeSeq_eq_ok : decodeSeq x = .ok i ↔ ∃ p t, x = selector p t ∧ microOp p t = .ok i := by
  constructor
  · intro h
    unfold decodeSeq at h
    split at h
    · cases h
    · next p hp => exact ⟨p, selIndex x, (selector_fields hp).symm, h⟩
  · rintro ⟨p, t, rfl, hm⟩
    rw [decodeSeq_selector, hm]

/-- The only selector with no micro-operation that can be reached is that of `(IDLE, 0)`. -/
theorem eq_zero_of_noMicroOp (h : decodeSeq x = .error .noMicroOp) : x = 0#9 := by
  revert x; decide

/-- A selector that decodes is the encoding of a well-formed micro-operation. -/
theorem encode_of_decodeSeq (h : decodeSeq x = .ok i) : WellFormed i ∧ encode i = .seq x := by
  obtain ⟨p, t, rfl, hm⟩ := decodeSeq_eq_ok.mp h
  exact ⟨(isMicroOp_of_microOp hm).2, encode_of_microOp hm⟩

/-- Settles O8: each pattern is the selector of its phase, and a selector that is no micro-operation's encoding does
not decode, so it is `IDLE`'s or unreachable. -/
theorem selectorTableDecides : Obligations.SelectorTableDecides := by
  refine ⟨rfl, fun t ht => decode_selector_of_microOp (p := .expand) (if_pos ht), rfl,
    fun t => decode_selector_of_microOp (p := .round) rfl, rfl, rfl, fun x hx hno => ?_⟩
  rw [decode_seq]
  cases h : decodeSeq x with
  | ok i =>
    obtain ⟨hw, he⟩ := encode_of_decodeSeq h
    exact absurd he (hno i hw)
  | error e =>
    cases e with
    | noMicroOp => exact absurd (eq_zero_of_noMicroOp h) hx
    | unreachable => rfl

/-! ### From a transaction word to its command and back -/

/-- The part of a transaction word that a read heeds: `rw` and `off` (`30_encoding.md` R64). -/
theorem busWord_read_part (rw : Bool) (off : BitVec 6) (v : Word) :
    busWord rw off v &&& 0x7F00000000#39 = busWord rw off 0#32 := by
  rw [show 0x7F00000000#39 = busWord true 0b111111#6 0#32 by decide, busWord_and,
    show off &&& 0b111111#6 = off from BitVec.and_allOnes, Bool.and_true, BitVec.and_zero]

/-- A write to `CTRL` that decodes is the encoding of its command. -/
theorem encode_of_decodeCtrl {v : Word} (h : decodeCtrl v = .ok i) :
    WellFormed i ∧ encode i = .bus (busWord true WindowReg.ctrl.offset v) := by
  rcases decodeCtrl_eq_ok.mp h with ⟨rfl, rfl⟩ | ⟨rfl, rfl⟩ | ⟨rfl, rfl⟩ | ⟨rfl, rfl⟩ <;> exact ⟨trivial, rfl⟩

/-- A transaction word that decodes is the encoding of its command, but for the `wdata` of a read. -/
theorem encode_of_decodeBus (h : decodeBus w = .ok i) :
    WellFormed i ∧ encode i = .bus (busWord (busWrites w) (busOffset w) (if busWrites w then busData w else 0#32)) := by
  rcases decodeBus_eq_ok.mp h with
    ⟨hr, hw, h⟩ | ⟨hr, hw, rfl⟩ | ⟨j, hr, hw, rfl⟩ | ⟨j, hr, hw, rfl⟩ | ⟨j, hr, hw, rfl⟩ <;>
    rw [hw, ← offset_of_windowReg hr]
  · exact encode_of_decodeCtrl h
  all_goals exact ⟨trivial, rfl⟩

/-- Settles O3: a transaction word by its three fields, a selector by its two. -/
theorem encodeDecodeCanonical : Obligations.EncodeDecodeCanonical := by
  refine ⟨fun w i h => ?_, fun x i h => encode_of_decodeSeq (decode_seq_eq_ok.mp h)⟩
  obtain ⟨hwf, he⟩ := encode_of_decodeBus (decode_bus_eq_ok.mp h)
  refine ⟨hwf, he.trans (congrArg Encoded.bus ?_)⟩
  split
  · exact busWord_fields w
  · conv_rhs => rw [← busWord_fields w]
    exact (busWord_read_part ..).symm

/-- Settles O1: each word by evaluating the decoder. -/
theorem specWordsDecode : Obligations.SpecWordsDecode := by
  unfold Obligations.SpecWordsDecode; decide

/-- `INITSTART` is `START` in the state that `INIT` leaves (`30_encoding.md` R62). -/
theorem execInitstart_eq_start_loadIV (s : State) : exec .initstart s = exec .start s.loadIV := rfl

/-- Settles O6: a write to `CTRL` decodes by its whole `wdata`, and `INIT` leaves `H = IV` and the rest as it was. -/
theorem ctrlValuesAreFourCommands : Obligations.CtrlValuesAreFourCommands := by
  refine ⟨fun v => ?_, fun s u h => ?_⟩
  · have hc : decodeBus (busWord true 0#6 v) = decodeCtrl v := decodeBus_busWord ..
    rw [decode_bus, hc, decodeCtrl_eq]
    split_ifs <;> rfl
  · obtain ⟨-, rfl⟩ := execInit_eq_next.mp h
    exact execInitstart_eq_start_loadIV s

/-! ### Operand fields -/

/-- The low bits of the offset of a transaction word are bits of the word. -/
theorem busOffset_low (w : BitVec 39) {n : Nat} (hn : n ≤ 6) : (busOffset w).extractLsb' 0 n = w.extractLsb' 32 n := by
  ext k hk
  simp only [busOffset, BitVec.getElem_extractLsb', BitVec.getLsbD_extractLsb']
  simp [show k < 6 by omega]

/-- The index of a `BLOCKi` is the low four bits of its offset, and the offset less `0x10`. -/
theorem block_index {j : BitVec 4} (h : windowReg (busOffset w) = some (.block j)) :
    j = w.extractLsb' 32 4 ∧ j.toNat = (w.extractLsb' 32 6).toNat - 0x10 ∧ 0x10 ≤ (w.extractLsb' 32 6).toNat := by
  have hoff : (w.extractLsb' 32 6).toNat = 0x10 + j.toNat := (busOffset_toNat h).trans (block_offset_toNat j)
  refine ⟨?_, by omega, by omega⟩
  rw [← busOffset_low w (by decide), ← offset_of_windowReg h]
  clear h hoff
  revert j; decide

/-- The index of a `DIGESTi` is the low three bits of its offset, and the offset less `0x20`. -/
theorem digest_index {j : BitVec 3} (h : windowReg (busOffset w) = some (.digest j)) :
    j = w.extractLsb' 32 3 ∧ j.toNat = (w.extractLsb' 32 6).toNat - 0x20 ∧ 0x20 ≤ (w.extractLsb' 32 6).toNat := by
  have hoff : (w.extractLsb' 32 6).toNat = 0x20 + j.toNat := (busOffset_toNat h).trans (digest_offset_toNat j)
  refine ⟨?_, by omega, by omega⟩
  rw [← busOffset_low w (by decide), ← offset_of_windowReg h]
  clear h hoff
  revert j; decide

/-- The words that decode to `WRBLK`. -/
theorem decodeBus_eq_wrblk {j : BitVec 4} {v : Word} :
    decodeBus w = .ok (.wrblk j v) ↔
      windowReg (busOffset w) = some (.block j) ∧ busWrites w = true ∧ v = busData w := by
  simp [decodeBus_eq_ok, decodeCtrl_eq_ok]

/-- The words that decode to `RDBLK`. -/
theorem decodeBus_eq_rdblk {j : BitVec 4} :
    decodeBus w = .ok (.rdblk j) ↔ windowReg (busOffset w) = some (.block j) ∧ busWrites w = false := by
  simp [decodeBus_eq_ok, decodeCtrl_eq_ok]

/-- The words that decode to `RDH`. -/
theorem decodeBus_eq_rdh {j : BitVec 3} :
    decodeBus w = .ok (.rdh j) ↔ windowReg (busOffset w) = some (.digest j) ∧ busWrites w = false := by
  simp [decodeBus_eq_ok, decodeCtrl_eq_ok]

/-- In a read the `wdata` field is ignored (`30_encoding.md` R64). -/
theorem decodeBus_read (off : BitVec 6) (v v' : Word) :
    decodeBus (busWord false off v) = decodeBus (busWord false off v') := by
  rw [decodeBus_busWord, decodeBus_busWord]
  cases windowReg off with
  | none => rfl
  | some r => cases r <;> rfl

/-- Settles O5: the decoder takes the index from the register window and the data word from `wdata`, which it does not
look at in a read. -/
theorem operandFields : Obligations.OperandFields := by
  refine ⟨fun w => ⟨fun i v h => ?_, fun i h => ?_, fun i h => ?_⟩, fun off v v' => ?_⟩
  · obtain ⟨hr, -, hv⟩ := decodeBus_eq_wrblk.mp (decode_bus_eq_ok.mp h)
    obtain ⟨hlow, hsub, hle⟩ := block_index hr
    exact ⟨hlow, hsub, hle, hv⟩
  · exact block_index (decodeBus_eq_rdblk.mp (decode_bus_eq_ok.mp h)).1
  · exact digest_index (decodeBus_eq_rdh.mp (decode_bus_eq_ok.mp h)).1
  · rw [decode_bus, decode_bus, decodeBus_read off v v']

end Sys2Proof.Machine
end

section
/-!
PROOFS. The opcode map as match and mask (`30_encoding.md` R61), and the words that select none of its rows (R68).
-/

namespace Sys2Proof.Machine

variable {i : Instr} {r : OpcodeRow 39} {w : BitVec 39}

/-! ### What each row selects -/

/-- A row selects a word field by field. -/
theorem selects_iff_fields {b c : Bool} {m o : BitVec 6} {d e : Word} :
    OpcodeRow.selects { mask := busWord b m d, pattern := busWord c o e } w = true ↔
      (busWrites w && b) = c ∧ busOffset w &&& m = o ∧ busData w &&& d = e := by
  rw [OpcodeRow.selects, beq_iff_eq, ← busWord_fields w, busWord_and, busWord_inj, busWord_fields]

/-- A row with every bit in its mask selects its pattern alone: the rows of the writes to `CTRL`. -/
theorem selects_whole_iff {p : BitVec 39} :
    OpcodeRow.selects { mask := 0x7FFFFFFFFF#39, pattern := p } w = true ↔ w = p := by
  rw [OpcodeRow.selects, beq_iff_eq, show w &&& 0x7FFFFFFFFF#39 = w from BitVec.and_allOnes]

/-- The rows of `WRBLK` and `RDBLK` select the writes and the reads of the block window. -/
theorem selects_block_iff (rw : Bool) :
    OpcodeRow.selects { mask := 0x7000000000#39, pattern := busWord rw 0b010000#6 0#32 } w = true ↔
      (∃ j, windowReg (busOffset w) = some (.block j)) ∧ busWrites w = rw := by
  have hwin : ∀ off : BitVec 6, off &&& 0b110000#6 = 0b010000#6 ↔ ∃ j, windowReg off = some (.block j) := by decide
  rw [← hwin, and_comm]
  refine (selects_iff_fields (b := true) (m := 0b110000#6) (d := 0#32)).trans ?_
  simp

/-- The row of `RDH` selects the reads of the digest window. -/
theorem selects_digest_iff :
    OpcodeRow.selects { mask := 0x7800000000#39, pattern := 0x2000000000#39 } w = true ↔
      (∃ j, windowReg (busOffset w) = some (.digest j)) ∧ busWrites w = false := by
  have hwin : ∀ off : BitVec 6, off &&& 0b111000#6 = 0b100000#6 ↔ ∃ j, windowReg off = some (.digest j) := by decide
  rw [← hwin, and_comm]
  refine (selects_iff_fields (b := true) (c := false) (m := 0b111000#6) (o := 0b100000#6) (d := 0#32)
    (e := 0#32)).trans ?_
  simp

/-- The row of `RDST` selects the reads of `STATUS`. -/
theorem selects_status_iff :
    OpcodeRow.selects { mask := 0x7F00000000#39, pattern := 0x0100000000#39 } w = true ↔
      windowReg (busOffset w) = some .status ∧ busWrites w = false := by
  have hwin : ∀ off : BitVec 6, off &&& 0b111111#6 = 0b000001#6 ↔ windowReg off = some .status := by decide
  rw [← hwin, and_comm]
  refine (selects_iff_fields (b := true) (c := false) (m := 0b111111#6) (o := 0b000001#6) (d := 0#32)
    (e := 0#32)).trans ?_
  simp

/-! ### The rows and the decoder -/

/-- Every command has a row. -/
theorem busRow_of_command (hc : isMicroOp i = false) : ∃ r, busRow i = some r := by
  cases i with
  | nopc | init | start | initstart | wrblk | rdblk | rdh | rdst => exact ⟨_, rfl⟩
  | loadw | expand | copy | round | accum => cases hc

/-- A word that decodes selects its command's row. -/
theorem selects_of_decodeBus (hd : decodeBus w = .ok i) (hr : busRow i = some r) : r.selects w = true := by
  rcases decodeBus_eq_ok.mp hd with
    ⟨hreg, hw, hc⟩ | ⟨hreg, hw, rfl⟩ | ⟨j, hreg, hw, rfl⟩ | ⟨j, hreg, hw, rfl⟩ | ⟨j, hreg, hw, rfl⟩
  · have hword : w = busWord true 0#6 (busData w) := by
      conv_lhs => rw [← busWord_fields w, hw, ← offset_of_windowReg hreg]
      rfl
    rcases decodeCtrl_eq_ok.mp hc with ⟨hv, rfl⟩ | ⟨hv, rfl⟩ | ⟨hv, rfl⟩ | ⟨hv, rfl⟩ <;> cases hr <;>
      rw [hv] at hword <;> exact selects_whole_iff.mpr hword
  · cases hr; exact selects_status_iff.mpr ⟨hreg, hw⟩
  · cases hr; exact (selects_block_iff false).mpr ⟨⟨j, hreg⟩, hw⟩
  · cases hr; exact (selects_block_iff true).mpr ⟨⟨j, hreg⟩, hw⟩
  · cases hr; exact selects_digest_iff.mpr ⟨⟨j, hreg⟩, hw⟩

/-- A word that selects a row decodes to a command of that row. -/
theorem decodeBus_of_selects (hr : busRow i = some r) (hs : r.selects w = true) :
    ∃ j, decodeBus w = .ok j ∧ busRow j = some r := by
  cases i with
  | nopc | init | start | initstart =>
    cases hr; obtain rfl := selects_whole_iff.mp hs
    exact ⟨_, rfl, rfl⟩
  | wrblk =>
    cases hr; obtain ⟨⟨j, hreg⟩, hw⟩ := (selects_block_iff true).mp hs
    exact ⟨_, decodeBus_eq_wrblk.mpr ⟨hreg, hw, rfl⟩, rfl⟩
  | rdblk =>
    cases hr; obtain ⟨⟨j, hreg⟩, hw⟩ := (selects_block_iff false).mp hs
    exact ⟨_, decodeBus_eq_rdblk.mpr ⟨hreg, hw⟩, rfl⟩
  | rdh =>
    cases hr; obtain ⟨⟨j, hreg⟩, hw⟩ := selects_digest_iff.mp hs
    exact ⟨_, decodeBus_eq_rdh.mpr ⟨hreg, hw⟩, rfl⟩
  | rdst =>
    cases hr; exact ⟨.rdst, decodeBus_eq_ok.mpr (.inr (.inl (by simpa using selects_status_iff.mp hs))), rfl⟩
  | loadw | expand | copy | round | accum => cases hr

/-- Settles O4: a word selects a row exactly when it decodes to a command of the row, and it decodes to one command at
most, so that two rows it selects are one. -/
theorem transactionTableDecides : Obligations.TransactionTableDecides := by
  refine ⟨⟨rfl, rfl, rfl, rfl, fun _ _ => rfl, fun _ => rfl, fun _ => rfl, rfl⟩, fun w r => ⟨?_, ?_⟩,
    fun w i hd => ?_, fun w i j r q hi hj hr hq => ?_⟩
  · rintro ⟨i, hd, hi⟩
    exact ⟨selects_of_decodeBus (decode_bus_eq_ok.mp hd) hi, i, hi⟩
  · rintro ⟨hs, i, hi⟩
    obtain ⟨j, hd, hj⟩ := decodeBus_of_selects hi hs
    exact ⟨j, decode_bus_eq_ok.mpr hd, hj⟩
  · have hd := decode_bus_eq_ok.mp hd
    obtain ⟨r, hr⟩ := busRow_of_command (kind_of_decodeBus hd).1
    exact ⟨r, hr, selects_of_decodeBus hd hr⟩
  · obtain ⟨k, hd, hk⟩ := decodeBus_of_selects hi hr
    obtain ⟨l, hd', hl⟩ := decodeBus_of_selects hj hq
    cases hd.symm.trans hd'
    exact Option.some.inj (hk.symm.trans hl)

/-! ### Reserved words -/

/-- A word selects no row exactly when the decoder rejects it. -/
theorem selects_no_row_iff :
    (∀ i r, busRow i = some r → r.selects w = false) ↔ ∃ e, decodeBus w = .error e := by
  constructor
  · intro hno
    cases hd : decodeBus w with
    | error e => exact ⟨e, rfl⟩
    | ok i =>
      obtain ⟨r, hr⟩ := busRow_of_command (kind_of_decodeBus hd).1
      cases (selects_of_decodeBus hd hr).symm.trans (hno i r hr)
  · rintro ⟨e, he⟩ i r hr
    by_contra hs
    obtain ⟨j, hd, -⟩ := decodeBus_of_selects hr (Bool.not_eq_false _ ▸ hs)
    cases he.symm.trans hd

/-- A word is reserved exactly when the decoder rejects it, and then for the decoder's reason. -/
theorem reservedReason_eq_some {x : RefusalReason} :
    reservedReason w = some x ↔ ∃ e, decodeBus w = .error e ∧ refusalOf e = x := by
  cases hd : decodeBus w with
  | ok i => simp [reservedReason_of_ok hd]
  | error e => simp [reservedReason_of_error hd]

/-- The oldest pending event of an unmarked run is refused when the decoder rejects it. -/
theorem step_of_rejected {s : State} {rest : List Event} {e : BusReject} (hr : s.refused = none)
    (hp : s.pending = .bus w :: rest) (hd : decodeBus w = .error e) : step s = refuse (refusalOf e) := by
  refine step_of_refuse ((nextMove_of_bus hr hp).trans ?_)
  rw [busMove_eq, hd]

/-- Settles O7: the decoder's rejections are on one side the words that select no row, and on the other the cases (a)
to (e); and a rejected word is refused for the case's reason. -/
theorem reservedTransactionsRefused : Obligations.ReservedTransactionsRefused := by
  refine ⟨fun w => selects_no_row_iff.trans ?_, fun s w rest x hr hp hx => ?_⟩
  · simp [reservedReason_eq_some]
  · obtain ⟨e, hd, rfl⟩ := reservedReason_eq_some.mp hx
    exact step_of_rejected hr hp hd

end Sys2Proof.Machine
end

section
/-!
PROOFS. Block words written one after another, and `LDBLK` (`30_encoding.md` R71).
-/

namespace Sys2Proof.Machine

variable {s : State} {w : Bank Word 4} {i : BitVec 4} {order : List (BitVec 4)} {rest : List Event}

/-- The buffer holds the block `w` but for the words with the indices of `order`. -/
def State.HoldsBut (s : State) (order : List (BitVec 4)) (w : Bank Word 4) : Prop :=
  ∀ i, i ∈ order ∨ (s.M.get i = w.get i ∧ s.written.get i = true)

/-- With nothing left out the buffer holds the block. -/
theorem State.HoldsBut.whole (h : s.HoldsBut [] w) : s.M = w ∧ s.written = Bank.fill true := by
  have hall : ∀ i, s.M.get i = w.get i ∧ s.written.get i = true := fun i => (h i).resolve_left List.not_mem_nil
  exact ⟨Bank.ext_get fun i => (hall i).1, Bank.eq_fill_iff.mpr fun i => (hall i).2⟩

/-- Each word written is one left out less. -/
theorem State.HoldsBut.writeBlock (h : s.HoldsBut (i :: order) w) :
    (s.writeBlock i (w.get i)).HoldsBut order w := by
  intro j
  by_cases hj : j = i
  · subst hj; exact .inr ⟨Bank.get_put_same .., Bank.get_put_same ..⟩
  · simpa [Bank.get_put_ne _ _ hj, hj] using h j

/-- The sixteen indices of `LDBLK` leave out nothing. -/
theorem State.holdsBut_ldblk (s : State) (w : Bank Word 4) :
    s.HoldsBut ((List.finRange (2 ^ 4)).map BitVec.ofFin) w :=
  fun i => .inl (List.mem_map.mpr ⟨i.toFin, List.mem_finRange _, rfl⟩)

/-- Writes of the words left out, pending for a ready engine, take effect one per step and fill the buffer. -/
theorem run_of_pending_writes (hr : s.refused = none) (hi : s.phase = .idle) (hs : s.HoldsBut order w)
    (hp : s.pending = (writeWords order w).map eventOf ++ rest) :
    run order.length s = .next { s with M := w, written := Bank.fill true, pending := rest } := by
  induction order generalizing s with
  | nil =>
    obtain ⟨hM, hw⟩ := hs.whole
    obtain rfl : s.pending = rest := hp
    rw [← hM, ← hw]; rfl
  | cons i order ih =>
    have hstep := (stepRunsTransaction s _ _ _ hr hp (decode_encode_command (i := .wrblk i (w.get i)) rfl)).trans
      (execWrblk_eq_next.mpr ⟨hi, rfl⟩)
    rw [List.length_cons, run_succ, hstep]
    exact ih (s := State.writeBlock { s with pending := _ } i (w.get i)) hr hi hs.writeBlock rfl

/-- Settles O60: `LDBLK` leaves out no index. -/
theorem loadBlockFillsBuffer : Obligations.LoadBlockFillsBuffer :=
  fun s m _ hr hi hp => run_of_pending_writes hr hi (s.holdsBut_ldblk m) hp

end Sys2Proof.Machine
end

section
/-!
PROOFS. The engine's turns in a run, and a compression under way: what each turn keeps until `ACCUM` ends it.
-/

namespace Sys2Proof.Machine

variable {s u : State} {i : Instr} {h : Bank Word 3} {w : Bank Word 4}

/-- The engine has the turn: `ENGINE` is the oldest pending event, or nothing is pending (log entry 4). -/
def State.EngineTurn (s : State) : Prop := s.pending = [] ∨ s.pending.head? = some .engine

/-- On the engine's turn the pending events are the turn, if any, and the events behind it. -/
theorem State.EngineTurn.pending (ht : s.EngineTurn) :
    s.pending = .engine :: s.pending.tail ∨ (s.pending = [] ∧ s.pending.tail = []) := by
  rcases ht with hp | hp
  · exact .inr ⟨hp, by rw [hp]; rfl⟩
  · exact .inl (List.eq_cons_of_mem_head? hp)

/-- An unmarked engine with `READY = 1`: no micro-operation is left and every command is accepted. -/
structure State.AtRest (s : State) : Prop where
  unmarked : s.refused = none
  idle : s.phase = .idle
  index : s.t = 0#6

/-- Rest is a matter of the mark and the sequencer alone. -/
theorem State.AtRest.congr (hs : s.AtRest) (er : u.refused = s.refused) (ep : u.phase = s.phase) (et : u.t = s.t) :
    u.AtRest :=
  ⟨er.trans hs.unmarked, ep.trans hs.idle, et.trans hs.index⟩

/-- A turn of an engine at rest changes nothing. -/
theorem State.AtRest.step_turn (hs : s.AtRest) (ht : s.EngineTurn) : step s = .next s.afterFetch :=
  idleEngineDoesNothing s _ hs.unmarked ht.pending hs.idle hs.index

/-- A turn of an unmarked engine at a legal selector is an empty one at rest, or runs the selector's
micro-operation. -/
theorem step_turn_cases (hr : s.refused = none) (hl : legalSelector s.phase s.t) (ht : s.EngineTurn) :
    (s.AtRest ∧ step s = .next s.afterFetch) ∨
      ∃ i u, microOp s.phase s.t = .ok i ∧ exec i s.afterFetch = .next u ∧ step s = .next u := by
  by_cases hp : s.phase = .idle
  · have hrest : s.AtRest := ⟨hr, hp, by rwa [hp] at hl⟩
    exact .inl ⟨hrest, hrest.step_turn ht⟩
  · obtain ⟨i, hm⟩ := microOp_of_legal hl hp
    obtain ⟨u, hu⟩ := exec_microOp_completes (s := s.afterFetch) hm
    exact .inr ⟨i, u, hm, hu, (step_of_engine_microOp hr ht.pending hm).trans hu⟩

/-- No instruction touches the mark or the pending events. -/
theorem exec_refused_pending (he : exec i s = .next u) : u.refused = s.refused ∧ u.pending = s.pending := by
  have hu := exec_cases he
  cases i <;> simp_all

/-- A legal selector with no micro-operation left is `IDLE`'s. -/
theorem stepsLeft_eq_zero {p : Phase} {t : BitVec 6} (h0 : stepsLeft p t = 0) : p = .idle := by
  have ht := t.isLt
  cases p with
  | idle => rfl
  | load | expand | copy | round | accum => simp only [stepsLeft] at h0; omega

/-- A turn of an unmarked engine at a legal selector uses up the event, leads to a legal selector, and leaves one
micro-operation less, if any was left. -/
theorem step_turn (hr : s.refused = none) (hl : legalSelector s.phase s.t) (ht : s.EngineTurn) :
    ∃ u, step s = .next u ∧ u.refused = none ∧ u.pending = s.pending.tail ∧ legalSelector u.phase u.t ∧
      stepsLeft u.phase u.t = stepsLeft s.phase s.t - 1 := by
  rcases step_turn_cases hr hl ht with ⟨hrest, hstep⟩ | ⟨i, u, hm, he, hstep⟩
  · refine ⟨_, hstep, hr, rfl, hl, ?_⟩
    change stepsLeft s.phase s.t = _
    rw [hrest.idle]; rfl
  · obtain ⟨hr', hp⟩ := exec_refused_pending he
    obtain ⟨hph, hix⟩ := Prod.mk.inj (exec_microOp_selector (s := s.afterFetch) hm he)
    refine ⟨u, hstep, hr'.trans hr, hp, ?_, ?_⟩ <;> rw [hph, hix]
    · exact legalSelector_next hl
    · exact Nat.eq_sub_of_add_eq (stepsLeft_nextSelector hl (busy_of_microOp hm))

/-! ### A compression under way -/

/-- `ACCUM` under the invariant leaves the compression of the block in `H` (`42_compression.md` R113). -/
theorem State.Inv.accumulate_eq_compress (hI : s.Inv) (hp : s.phase = .accum) :
    accumulate s.H s.reg = compress s.H s.M := by
  rw [compress, ← hI.registers 64 (by rw [hp]; rfl)]

/-- An unmarked engine that is compressing the block `w` into the hash state `h`, or has done so. -/
structure State.Compressing (s : State) (h : Bank Word 3) (w : Bank Word 4) : Prop where
  unmarked : s.refused = none
  inv : s.Inv
  block : s.M = w
  busy : s.phase ≠ .idle → s.H = h
  done : s.phase = .idle → s.H = compress h w

/-- A compression begins in `(LOAD, 0)` with the block written. -/
theorem State.Compressing.of_load (hr : s.refused = none) (hp : s.phase = .load) (ht : s.t = 0#6)
    (hw : ∀ i, s.written.get i = true) : s.Compressing s.H s.M :=
  ⟨hr, .of_load hp ht hw, rfl, fun _ => rfl, fun hi => by cases hp.symm.trans hi⟩

/-- What is pending and what has been returned is not the compression's. -/
theorem State.Compressing.reply (hs : s.Compressing h w) (v : Word) : (s.afterFetch.reply v).Compressing h w :=
  ⟨hs.unmarked, hs.inv.congr rfl rfl rfl rfl rfl rfl rfl, hs.block, hs.busy, hs.done⟩

/-- A compression that is over leaves the engine at rest. -/
theorem State.Compressing.atRest (hs : s.Compressing h w) (hp : s.phase = .idle) : s.AtRest :=
  ⟨hs.unmarked, hp, hs.inv.index_of_idle hp⟩

/-- No micro-operation writes the block buffer. -/
theorem exec_microOp_block (hk : isMicroOp i = true) (he : exec i s = .next u) : u.M = s.M := by
  refine Bank.ext_get fun j => ?_
  rcases exec_blockWord he j with ⟨hM, -⟩ | ⟨v, rfl, -⟩
  · exact hM
  · cases hk

/-- `ACCUM` ends the compression. -/
theorem State.Compressing.accum (hs : s.Compressing h w) (hp : s.phase = .accum) (he : exec .accum s = .next u) :
    u.Compressing h w := by
  have hH : accumulate s.H s.reg = compress h w := by
    rw [hs.inv.accumulate_eq_compress hp, hs.busy (by rw [hp]; decide), hs.block]
  obtain rfl := execAccum_eq_next.mp he
  exact ⟨hs.unmarked, .of_idle rfl rfl, hs.block, fun hb => absurd rfl hb, fun _ => hH⟩

/-- The micro-operations before `ACCUM` leave the engine busy and `H` as it was. -/
theorem exec_microOp_busy (hm : microOp s.phase s.t = .ok i) (hp : s.phase ≠ .accum) (he : exec i s = .next u) :
    u.phase ≠ .idle ∧ u.H = s.H := by
  have hsel : u.phase = (nextSelector s.phase s.t).1 := congrArg Prod.fst (exec_microOp_selector hm he)
  refine ⟨fun hu => hp (phase_of_nextSelector_idle (busy_of_microOp hm) (hsel.symm.trans hu)), ?_⟩
  have hk := (isMicroOp_of_microOp hm).1
  rcases exec_hashState he with hH | ⟨rfl | rfl, -⟩ | ⟨rfl, -⟩
  · exact hH
  · cases hk
  · cases hk
  · obtain ⟨hp', -⟩ : s.phase = .accum ∧ s.t = 0#6 := by simpa using microOp_eq_ok.mp hm
    exact absurd hp' hp

/-- Each micro-operation carries the compression on. -/
theorem State.Compressing.exec_microOp (hs : s.Compressing h w) (hm : microOp s.phase s.t = .ok i)
    (he : exec i s = .next u) : u.Compressing h w := by
  by_cases hp : s.phase = .accum
  · obtain ⟨-, rfl⟩ : s.t = 0#6 ∧ i = .accum := by simpa [hp] using microOp_eq_ok.mp hm
    exact hs.accum hp he
  · obtain ⟨hb, hH⟩ := exec_microOp_busy hm hp he
    exact ⟨(exec_refused_pending he).1.trans hs.unmarked, hs.inv.exec_microOp hm he,
      (exec_microOp_block (isMicroOp_of_microOp hm).1 he).trans hs.block,
      fun _ => hH.trans (hs.busy (busy_of_microOp hm)), fun hi => absurd hi hb⟩

/-- A turn of the engine carries the compression on, and leaves it alone when it is over. -/
theorem State.Compressing.step_turn (hs : s.Compressing h w) (ht : s.EngineTurn) :
    ∃ u, step s = .next u ∧ u.Compressing h w ∧ (s.phase = .idle → u.phase = .idle) := by
  have hfetch : s.afterFetch.Compressing h w := ⟨hs.unmarked, hs.inv.fetched, hs.block, hs.busy, hs.done⟩
  rcases step_turn_cases hs.unmarked hs.inv.legal ht with ⟨-, hstep⟩ | ⟨i, u, hm, he, hstep⟩
  · exact ⟨_, hstep, hfetch, id⟩
  · exact ⟨u, hstep, hfetch.exec_microOp hm he, fun hi => absurd hi (busy_of_microOp hm)⟩

end Sys2Proof.Machine
end

section
/-!
PROOFS. The pseudo-commands (`30_encoding.md` R71), performed by a run with engine turns anywhere between their
commands.
-/

namespace Sys2Proof.Machine

variable {s u : State} {i : Instr} {h : Bank Word 3} {w : Bank Word 4} {order : List (BitVec 4)} {n : Nat}
  {q : List HostAction} {rest : List Event}

/-! ### `LDBLK` and `RDDIGEST`: commands that leave the engine at rest -/

/-- What `WRBLK` and `RDH` do to an engine at rest (`exec_wrblk` and `exec_rdh` below); it is asked of no other
instruction. -/
def restEffect : Instr → State → State
  | .wrblk i v, s => s.writeBlock i v
  | .rdh i, s => s.reply (s.H.get i)
  | _, s => s

theorem restEffect_pending (i : Instr) (s : State) (es : List Event) :
    restEffect i { s with pending := es } = { restEffect i s with pending := es } := by
  cases i <;> rfl

/-- `WRBLK` at rest. -/
theorem State.AtRest.exec_wrblk (hs : s.AtRest) (i : BitVec 4) (v : Word) :
    exec (.wrblk i v) s = .next (restEffect (.wrblk i v) s) ∧ (restEffect (.wrblk i v) s).AtRest :=
  ⟨execWrblk_eq_next.mpr ⟨hs.idle, rfl⟩, hs.congr rfl rfl rfl⟩

/-- `RDH` at rest: no free value is drawn. -/
theorem State.AtRest.exec_rdh (hs : s.AtRest) (i : BitVec 3) :
    exec (.rdh i) s = .next (restEffect (.rdh i) s) ∧ (restEffect (.rdh i) s).AtRest := by
  have hready : s.ready = true := State.ready_iff.mpr hs.idle
  refine ⟨execRdh_eq_next.mpr ?_, hs.congr rfl rfl rfl⟩
  rw [State.digestWord, hready]; rfl

/-- Commands that leave the engine at rest have their effects one after another, wherever the engine's turns fall. -/
theorem run_of_performs_at_rest {l : List Instr}
    (he : ∀ i ∈ l, ∀ s, State.AtRest s → exec i s = .next (restEffect i s) ∧ (restEffect i s).AtRest)
    (hs : s.AtRest) (hp : performs (commands l) n s = true) :
    run n s = .next { l.foldl (fun s i => restEffect i s) s with pending := s.pending.drop n } :=
  run_of_performs_commands (fun _ hs => hs.unmarked) (fun _ hs ht => hs.step_turn ht)
    (fun _ hs => hs.congr rfl rfl rfl) restEffect_pending he hs hp

/-- Writing the words left out fills the buffer. -/
theorem foldl_restEffect_writeWords (hs : s.HoldsBut order w) :
    (writeWords order w).foldl (fun s i => restEffect i s) s = { s with M := w, written := Bank.fill true } := by
  induction order generalizing s with
  | nil => obtain ⟨hM, hw⟩ := hs.whole; rw [← hM, ← hw]; rfl
  | cons i order ih => exact ih (s := s.writeBlock i (w.get i)) hs.writeBlock

/-- `LDBLK`, in any order and with any words omitted that `M` already holds, fills the buffer. -/
theorem run_of_performs_writeWords (hs : s.AtRest) (hm : s.HoldsBut order w)
    (hp : performs (commands (writeWords order w)) n s = true) :
    run n s = .next { s with M := w, written := Bank.fill true, pending := s.pending.drop n } := by
  rw [run_of_performs_at_rest (fun i hi s hs => ?_) hs hp, foldl_restEffect_writeWords hm]
  obtain ⟨j, -, rfl⟩ := List.mem_map.mp hi
  exact hs.exec_wrblk j _

/-- Reads of hash words return them in order. -/
theorem foldl_restEffect_rdh (l : List (BitVec 3)) (s : State) :
    (l.map Instr.rdh).foldl (fun s i => restEffect i s) s = { s with returned := s.returned ++ l.map s.H.get } := by
  induction l generalizing s with
  | nil => simp
  | cons i l ih =>
    refine (ih (s.reply (s.H.get i))).trans ?_
    simp [State.reply]

/-- The words of a hash state by index are its cells in order. -/
theorem map_get_eq_toList (b : Bank Word 3) :
    ((List.finRange (2 ^ 3)).map BitVec.ofFin).map b.get = b.cells.toList := by
  apply List.ext_getElem
  · simp
  · intro k h1 h2
    simp [Bank.get]

/-- `RDDIGEST` returns the hash words in order. -/
theorem run_of_performs_rddigest (hs : s.AtRest) (hp : performs (commands rddigest) n s = true) :
    run n s = .next { s with returned := s.returned ++ s.H.cells.toList, pending := s.pending.drop n } := by
  have hread : rddigest = ((List.finRange (2 ^ 3)).map BitVec.ofFin).map Instr.rdh := by
    rw [List.map_map]; rfl
  rw [hread] at hp
  rw [run_of_performs_at_rest (fun i hi s hs => ?_) hs hp, foldl_restEffect_rdh, map_get_eq_toList]
  obtain ⟨j, -, rfl⟩ := List.mem_map.mp hi
  exact hs.exec_rdh j

/-! ### `WAIT` -/

/-- A `WAIT` from any legal selector ends in `IDLE`. -/
theorem run_of_performs_wait_legal (hr : s.refused = none) (hl : legalSelector s.phase s.t)
    (hp : performs [.wait] n s = true) : ∃ u, run n s = .next u ∧ u.phase = .idle := by
  have hturn : ∀ s : State, s.refused = none ∧ legalSelector s.phase s.t → s.EngineTurn →
      ∃ u, step s = .next u ∧ (u.refused = none ∧ legalSelector u.phase u.t) ∧ (s.phase = .idle → u.phase = .idle) := by
    rintro s ⟨hr, hl⟩ ht
    obtain ⟨u, hu, hr', -, hl', hn⟩ := step_turn hr hl ht
    exact ⟨u, hu, ⟨hr', hl'⟩, fun hi => stepsLeft_eq_zero (by rw [hn, hi]; rfl)⟩
  obtain ⟨u, hu, -, hi⟩ := run_of_performs_wait (P := fun s => s.refused = none ∧ legalSelector s.phase s.t)
    (fun _ hs => hs.1) hturn (fun _ _ hs => hs) ⟨hr, hl⟩ (.inl hp)
  exact ⟨u, hu, hi⟩

/-- A poll of an unmarked engine returns `STATUS`. -/
theorem step_rdst (hr : s.refused = none) (hp : s.pending = eventOf .rdst :: rest) :
    step s = exec .rdst s.afterFetch := by
  rw [afterFetch_of_bus hp]
  exact stepRunsTransaction s _ _ _ hr hp rfl

/-- What a poll leaves of a `WAIT`: nothing when the engine is ready. -/
theorem afterStep_wait_rdst (hr : s.refused = none) (hp : s.pending = eventOf .rdst :: rest) :
    afterStep [.wait] s = some (if s.ready then [] else [.wait]) := by
  have hc : afterStep [.wait] s = afterCommand [.wait] .rdst s (markedStep s) := by
    unfold afterStep; rw [hp]; rfl
  rw [hc, afterCommand, saysReady_rdst (step_rdst hr hp)]; rfl

/-- A `WAIT` ends at a poll of an idle engine. -/
theorem performs_wait_of_idle (hr : s.refused = none) (hi : s.phase = .idle)
    (hp : s.pending = eventOf .rdst :: rest) : performs [.wait] 1 s = true := by
  rw [performs_succ, afterStep_wait_rdst hr hp, State.ready_iff.mpr hi]
  exact ⟨[], rfl, performs_zero.mpr rfl⟩

/-- A step that a `WAIT` outlasts. -/
theorem performs_wait_succ (ha : afterStep [.wait] s = some [.wait]) (hu : step s = .next u)
    (hw : performs [.wait] n u = true) : performs [.wait] (n + 1) s = true :=
  performs_succ.mpr ⟨_, ha, by rwa [markedStep_of_next hu]⟩

/-- Among polls and turns enough for the micro-operations left, followed by one more poll, some first part is a whole
`WAIT`. -/
theorem exists_performs_wait {es : List Event} (hr : s.refused = none) (hl : legalSelector s.phase s.t)
    (hp : s.pending = es ++ eventOf .rdst :: rest) (hes : ∀ e ∈ es, e = .engine ∨ e = eventOf .rdst)
    (hn : stepsLeft s.phase s.t ≤ es.count .engine) : ∃ n, n ≤ es.length + 1 ∧ performs [.wait] n s = true := by
  induction es generalizing s with
  | nil => exact ⟨1, le_rfl, performs_wait_of_idle hr (stepsLeft_eq_zero (Nat.le_zero.mp hn)) hp⟩
  | cons e es ih =>
    have hes' : ∀ e ∈ es, e = .engine ∨ e = eventOf .rdst := fun e he => hes e (List.mem_cons_of_mem _ he)
    rcases hes e List.mem_cons_self with rfl | rfl
    · obtain ⟨u, hu, hr', hp', hl', hn'⟩ := step_turn hr hl (.inr (by rw [hp]; rfl))
      rw [List.count_cons_self] at hn
      obtain ⟨n, hle, hw⟩ := ih hr' hl' (by rw [hp', hp]; rfl) hes' (by omega)
      have ha : afterStep [.wait] s = some [.wait] := by unfold afterStep; rw [hp]; rfl
      exact ⟨n + 1, Nat.succ_le_succ hle, performs_wait_succ ha hu hw⟩
    · by_cases hi : s.phase = .idle
      · exact ⟨1, by simp, performs_wait_of_idle hr hi hp⟩
      · have hu := (step_rdst hr hp).trans (execRdst_eq_next.mpr rfl)
        obtain ⟨n, hle, hw⟩ := ih (s := s.afterFetch.reply s.afterFetch.statusWord) hr hl
          (congrArg List.tail hp) hes' hn
        have ha := afterStep_wait_rdst hr hp
        rw [State.not_ready_iff.mpr hi] at ha
        exact ⟨n + 1, Nat.succ_le_succ hle, performs_wait_succ ha hu hw⟩

/-! ### `HASHBLK` and `FIRSTBLK` -/

/-- A run from rest that performs a program comes to its first command by turns that change nothing. -/
theorem performs_issue (hs : s.AtRest) (hp : performs (.issue i :: q) n s = true) :
    ∃ m k v es, n = m + 1 + k ∧ run m s = .next v ∧ step v = exec i { s with pending := es } ∧
      performs q k (markedStep v) = true := by
  induction n generalizing s with
  | zero => cases performs_zero.mp hp
  | succ n ih =>
    obtain ⟨p, ha, hn⟩ := performs_succ.mp hp
    rcases afterStep_cases hs.unmarked ha with ⟨ht, rfl⟩ | ⟨j, -, hst, hc⟩
    · have hturn := hs.step_turn ht
      rw [markedStep_of_next hturn] at hn
      obtain ⟨m, k, v, es, rfl, hrun, hstep, hq⟩ := ih (s := s.afterFetch) (hs.congr rfl rfl rfl) hn
      refine ⟨m + 1, k, v, es, by omega, ?_, hstep, hq⟩
      rw [run_succ, hturn]; exact hrun
    · obtain ⟨rfl, rfl⟩ := afterCommand_issue.mp hc
      exact ⟨0, n, s, _, by omega, rfl, hst, hn⟩

/-- `LDBLK`, a command that begins to compress the block, and `WAIT`: the compression is carried through. -/
theorem run_of_performs_block (hs : s.AtRest)
    (hi : ∀ es, ∃ u, exec i { s with M := w, written := Bank.fill true, pending := es } = .next u ∧ u.Compressing h w)
    (hp : performs (commands (ldblk w) ++ [.issue i, .wait]) n s = true) :
    ∃ u, run n s = .next u ∧ u.Compressing h w ∧ u.phase = .idle := by
  obtain ⟨m, k, rfl, hld, hrest⟩ := performs_append hp
  have hload := run_of_performs_writeWords hs (s.holdsBut_ldblk w) hld
  rw [markedRun_of_run hload] at hrest
  obtain ⟨m', k', v, es, rfl, hrun, hstep, hwait⟩ :=
    performs_issue (s := { s with M := w, written := _, pending := _ }) (hs.congr rfl rfl rfl) hrest
  obtain ⟨u₀, hu₀, hc⟩ := hi es
  have hstart := hstep.trans hu₀
  rw [markedStep_of_next hstart] at hwait
  obtain ⟨u, hu, hcu, hidle⟩ := run_of_performs_wait (P := (State.Compressing · h w)) (fun _ hs => hs.unmarked)
    (fun _ hs ht => hs.step_turn ht) (fun _ v hs => hs.reply v) hc (.inl hwait)
  refine ⟨u, ?_, hcu, hidle⟩
  rw [run_add hload, run_add (run_snoc hrun hstart), hu]

/-- `HASHBLK` carries a compression of the block into `H` through. -/
theorem run_of_performs_hashblk (hs : s.AtRest) (hp : performs (hashblk w) n s = true) :
    ∃ u, run n s = .next u ∧ u.Compressing s.H w ∧ u.phase = .idle :=
  run_of_performs_block hs (fun _ => ⟨_, execStart_eq_next.mpr ⟨hs.idle, Bank.get_fill true, rfl⟩,
    .of_load hs.unmarked rfl rfl (Bank.get_fill true)⟩) hp

/-- `FIRSTBLK` carries a compression of the block into `IV` through. -/
theorem run_of_performs_firstblk (hs : s.AtRest) (hp : performs (firstblk w) n s = true) :
    ∃ u, run n s = .next u ∧ u.Compressing IV w ∧ u.phase = .idle :=
  run_of_performs_block hs (fun _ => ⟨_, execInitstart_eq_next.mpr ⟨hs.idle, Bank.get_fill true, rfl⟩,
    .of_load hs.unmarked rfl rfl (Bank.get_fill true)⟩) hp

/-- Settles O52: `LDBLK` and `RDDIGEST` by the effect of their commands at rest, `WAIT` by the micro-operations left,
`HASHBLK` and `FIRSTBLK` by the compression that their start begins. That the engine takes its turn when nothing is
pending is the choice of log entry 4. -/
theorem pseudoCommandsRun : Obligations.PseudoCommandsRun := by
  refine ⟨fun s n w order hr hi ht hm hp => ⟨_, run_of_performs_writeWords ⟨hr, hi, ht⟩ hm hp, rfl⟩,
    fun s n hr hl hp => run_of_performs_wait_legal hr hl hp,
    fun s es rest hr hl hp hes hn => exists_performs_wait hr hl hp hes hn,
    fun s n w hr hi ht => ⟨fun hp => ?_, fun hp => ?_⟩,
    fun s n hr hi ht hp => ⟨_, run_of_performs_rddigest ⟨hr, hi, ht⟩ hp, rfl⟩⟩
  · obtain ⟨u, hu, hc, hidle⟩ := run_of_performs_hashblk ⟨hr, hi, ht⟩ hp
    exact ⟨u, hu, hidle, (hc.atRest hidle).index, hc.block, hc.done hidle⟩
  · obtain ⟨u, hu, hc, hidle⟩ := run_of_performs_firstblk ⟨hr, hi, ht⟩ hp
    exact ⟨u, hu, hidle, (hc.atRest hidle).index, hc.block, hc.done hidle⟩

end Sys2Proof.Machine
end

section
/-!
PROOFS. The word functions of `40_word_functions.md`: each read bit by bit (R81 to R89), the primitive operators also as
arithmetic (R80 to R83).
-/

namespace Sys2Proof.Machine

variable {j : Nat}

/-! ### The primitive operators -/

theorem add32_toNat (x y : Word) : (add32 x y).toNat = (x.toNat + y.toNat) % 2 ^ 32 :=
  BitVec.toNat_add x y

theorem add32_comm (x y : Word) : add32 x y = add32 y x :=
  BitVec.add_comm x y

theorem add32_assoc (x y z : Word) : add32 (add32 x y) z = add32 x (add32 y z) :=
  BitVec.add_assoc x y z

/-- A bit of a rotation, for every amount; an amount of the width or more counts modulo the width (R81). -/
theorem getLsbD_rotr (x : Word) (n : Nat) (hj : j < 32) :
    (rotr x n).getLsbD j = x.getLsbD ((j + n) % 32) := by
  rw [rotr, BitVec.getLsbD_rotateRight]
  rcases Nat.lt_or_ge j (32 - n % 32) with h | h
  · have hbit : n % 32 + j = (j + n) % 32 := by omega
    simp [h, hbit]
  · have hbit : j - (32 - n % 32) = (j + n) % 32 := by omega
    simp [Nat.not_lt.mpr h, hj, hbit]

/-- A bit of a right shift, `false` where the shift has brought a zero in (R82). -/
theorem getLsbD_shr (x : Word) (n : Nat) :
    (shr x n).getLsbD j = (decide (j + n < 32) && x.getLsbD (j + n)) := by
  rw [shr, BitVec.getLsbD_ushiftRight, Nat.add_comm n j]
  by_cases h : j + n < 32
  · simp [h]
  · simp [h, BitVec.getLsbD_of_ge x (j + n) (Nat.not_lt.mp h)]

theorem shr_toNat (x : Word) (n : Nat) : (shr x n).toNat = x.toNat / 2 ^ n := by
  rw [shr, BitVec.toNat_ushiftRight, Nat.shiftRight_eq_div_pow]

/-- The right and the left shift that a rotation is made of have no bit in common (R81). -/
theorem shr_and_shiftLeft (x : Word) (n : Nat) : shr x n &&& x <<< (32 - n) = 0#32 := by
  apply BitVec.eq_of_getLsbD_eq
  intro j hj
  rcases Nat.lt_or_ge j (32 - n) with h | h
  · simp [h]
  · have hout : ¬ j + n < 32 := by omega
    simp [getLsbD_shr, hout]

/-- A rotation is the sum of its two terms, which no carry disturbs (R81). -/
theorem rotr_eq_add (x : Word) {n : Nat} (hn : n < 32) : rotr x n = shr x n + x <<< (32 - n) := by
  rw [BitVec.add_eq_or_of_and_eq_zero _ _ (shr_and_shiftLeft x n), rotr, BitVec.rotateRight_def,
    Nat.mod_eq_of_lt hn, shr]

theorem rotr_toNat (x : Word) {n : Nat} (hn : n < 32) :
    (rotr x n).toNat = x.toNat / 2 ^ n + (x.toNat * 2 ^ (32 - n)) % 2 ^ 32 := by
  rw [rotr_eq_add x hn, BitVec.toNat_add_of_and_eq_zero (shr_and_shiftLeft x n), shr_toNat,
    BitVec.toNat_shiftLeft, Nat.shiftLeft_eq]

/-- Settles O49: a rotation bit by bit and as the sum of its two disjoint terms, a shift as a division, addition and the
bitwise operators from the words' own laws. -/
theorem primitiveOperators : Obligations.PrimitiveOperators := by
  refine ⟨fun x y z => ⟨add32_toNat x y, add32_comm x y, add32_assoc x y z⟩, fun x n j hj => getLsbD_rotr x n hj,
    fun x n _ hn => rotr_toNat x (Nat.lt_succ_of_le hn), shr_toNat, fun x n j _ => ?_,
    fun x y j hj => ⟨BitVec.getLsbD_xor, BitVec.getLsbD_and, ?_⟩, fun x => (BitVec.allOnes_sub_eq_not x).symm⟩
  · rw [getLsbD_shr]
    have hle : j + n ≤ 31 ↔ j + n < 32 := Nat.lt_succ_iff.symm
    simp [hle]
  · simp [hj]

/-! ### The sigma functions -/

/-- A bit of two rotations and a third term: the shape of the four sigma functions (R84 to R87). -/
theorem getLsbD_xor_rotr_xor {x y : Word} {m n : Nat} (hj : j < 32) :
    (rotr x m ^^^ rotr x n ^^^ y).getLsbD j =
      ((x.getLsbD ((j + m) % 32) ^^ x.getLsbD ((j + n) % 32)) ^^ y.getLsbD j) := by
  rw [BitVec.getLsbD_xor, BitVec.getLsbD_xor, getLsbD_rotr x m hj, getLsbD_rotr x n hj]

/-- Settles O50: the bits of a sigma function are those of its three terms. -/
theorem sigmaBits : Obligations.SigmaBits := by
  intro x
  refine ⟨rfl, rfl, rfl, rfl, fun j hj => ⟨?_, ?_, ?_, ?_⟩⟩
  · rw [ssig0, getLsbD_xor_rotr_xor hj, getLsbD_shr]
  · rw [ssig1, getLsbD_xor_rotr_xor hj, getLsbD_shr]
  · rw [bsig0, getLsbD_xor_rotr_xor hj, getLsbD_rotr _ _ hj]
  · rw [bsig1, getLsbD_xor_rotr_xor hj, getLsbD_rotr _ _ hj]

/-! ### `CH` and `MAJ` -/

/-- A bit of `CH` is chosen by `x`'s bit (R88). -/
theorem getLsbD_ch (x y z : Word) (hj : j < 32) :
    (ch x y z).getLsbD j = if x.getLsbD j then y.getLsbD j else z.getLsbD j := by
  simp only [ch, BitVec.getLsbD_xor, BitVec.getLsbD_and, BitVec.getLsbD_not, hj]
  cases x.getLsbD j <;> simp

/-- A word each of whose bits `x` chooses is `CH` (R88). -/
theorem ch_eq_of_getLsbD {x y z w : Word}
    (h : ∀ j < 32, w.getLsbD j = if x.getLsbD j then y.getLsbD j else z.getLsbD j) : ch x y z = w :=
  BitVec.eq_of_getLsbD_eq fun j hj => (getLsbD_ch x y z hj).trans (h j hj).symm

theorem ch_eq_or (x y z : Word) : ch x y z = (x &&& y) ||| (~~~x &&& z) := by
  apply ch_eq_of_getLsbD
  intro j hj
  simp only [BitVec.getLsbD_or, BitVec.getLsbD_and, BitVec.getLsbD_not, hj]
  cases x.getLsbD j <;> simp

/-- The two terms of `CH` have no bit in common, so their sum has no carry (R88). -/
theorem ch_eq_add (x y z : Word) : ch x y z = (x &&& y) + (~~~x &&& z) := by
  have hdisj : (x &&& y) &&& (~~~x &&& z) = 0#32 := by
    rw [BitVec.and_comm x y, BitVec.and_assoc, ← BitVec.and_assoc x, BitVec.and_not_self]
    simp
  rw [ch_eq_or, BitVec.add_eq_or_of_and_eq_zero _ _ hdisj]

theorem ch_eq_xor_and_xor (x y z : Word) : ch x y z = z ^^^ (x &&& (y ^^^ z)) := by
  apply ch_eq_of_getLsbD
  intro j _
  simp only [BitVec.getLsbD_xor, BitVec.getLsbD_and]
  cases x.getLsbD j <;> simp [Bool.xor_left_comm]

/-- How many of the three words have a 1 at bit `j`. -/
def onesAt (x y z : Word) (j : Nat) : Nat := (x.getLsbD j).toNat + (y.getLsbD j).toNat + (z.getLsbD j).toNat

/-- A bit of `MAJ` is 1 exactly when at least two operands have a 1 there, by the eight-row truth table (R89). -/
theorem getLsbD_maj (x y z : Word) (j : Nat) : (maj x y z).getLsbD j = decide (2 ≤ onesAt x y z j) := by
  have table : ∀ a b c : Bool, (((a && b) ^^ (a && c)) ^^ (b && c)) = decide (2 ≤ a.toNat + b.toNat + c.toNat) := by
    decide
  simp only [maj, BitVec.getLsbD_xor, BitVec.getLsbD_and]
  exact table _ _ _

/-- The form with `or`, by the eight-row truth table (R89). -/
theorem maj_eq_or (x y z : Word) : maj x y z = (x &&& y) ||| (z &&& (x ||| y)) := by
  have table : ∀ a b c : Bool, (((a && b) ^^ (a && c)) ^^ (b && c)) = (a && b || c && (a || b)) := by decide
  apply BitVec.eq_of_getLsbD_eq
  intro j _
  simp only [maj, BitVec.getLsbD_xor, BitVec.getLsbD_and, BitVec.getLsbD_or]
  exact table _ _ _

/-- Words that have as many 1s at each bit have the same majority. -/
theorem maj_congr {x y z x' y' z' : Word} (h : ∀ j, onesAt x y z j = onesAt x' y' z' j) :
    maj x y z = maj x' y' z' :=
  BitVec.eq_of_getLsbD_eq fun j _ => by rw [getLsbD_maj, getLsbD_maj, h]

/-- Exchanging the first two operands of `MAJ` changes nothing (R89). -/
theorem maj_comm (x y z : Word) : maj x y z = maj y x z :=
  maj_congr fun _ => congrArg (· + _) (Nat.add_comm _ _)

/-- Exchanging the last two operands of `MAJ` changes nothing (R89). -/
theorem maj_right_comm (x y z : Word) : maj x y z = maj x z y :=
  maj_congr fun _ => Nat.add_right_comm _ _ _

/-- Settles O51: `CH` by the bit of its first operand, `MAJ` by how many of its operands have a 1. -/
theorem chChoosesMajIsMajority : Obligations.ChChoosesMajIsMajority :=
  fun x y z => ⟨⟨fun _ hj => getLsbD_ch x y z hj, ch_eq_or x y z, ch_eq_add x y z, ch_eq_xor_and_xor x y z⟩,
    fun j _ => getLsbD_maj x y z j, maj_comm x y z, maj_right_comm x y z, maj_eq_or x y z⟩

end Sys2Proof.Machine
end

section
/-!
PROOFS. Nothing dead reaches a result: two states that differ only in what is dead answer every step alike
(`10_state.md` R34, `41_schedule.md` R103).

Two such states are one state with two choices of the hidden part, `W` and the working registers; every rule below says
what an operation does to the hidden part and to the rest.
-/

namespace Sys2Proof.Machine

/-- The state with `w` and `r` for its hidden part: the schedule and the working registers. -/
def State.withHidden (s : State) (w : Bank Word 6) (r : Working) : State := (s.setW w).setReg r

section

variable (s : State) (w w' : Bank Word 6) (r r' : Working)

@[simp] theorem State.withHidden_W : (s.withHidden w r).W = w := rfl

@[simp] theorem State.withHidden_H : (s.withHidden w r).H = s.H := rfl

@[simp] theorem State.withHidden_loadWord : (s.withHidden w r).loadWord = s.loadWord := rfl

@[simp] theorem State.withHidden_allWritten : (s.withHidden w r).allWritten = s.allWritten := rfl

@[simp] theorem State.setW_withHidden : (s.withHidden w r).setW w' = s.withHidden w' r := rfl

@[simp] theorem State.setReg_withHidden : (s.withHidden w r).setReg r' = s.withHidden w r' := rfl

@[simp] theorem State.drew_withHidden (n : Nat) : (s.withHidden w r).drew n = (s.drew n).withHidden w r := rfl

@[simp] theorem State.goto_withHidden (p : Phase) (n : BitVec 6) :
    (s.withHidden w r).goto p n = (s.goto p n).withHidden w r := rfl

@[simp] theorem State.loopOr_withHidden (p q : Phase) (t : BitVec 6) :
    (s.withHidden w r).loopOr p q t = (s.loopOr p q t).withHidden w r := by
  unfold State.loopOr; split <;> rfl

theorem execLoadw_withHidden : exec .loadw (s.withHidden w r) =
    .next (((s.drew (if s.allWritten then 0 else 16)).goto .expand 16#6).withHidden (loadSchedule s.loadWord w) r) := by
  rw [execLoadw_eq_next, State.withHidden_loadWord, State.withHidden_allWritten, State.withHidden_W,
    State.setW_withHidden, State.drew_withHidden, State.goto_withHidden]

theorem execExpand_withHidden {t : BitVec 6} (h16 : 16#6 ≤ t) : exec (.expand t) (s.withHidden w r) =
    .next ((s.loopOr .expand .copy t).withHidden (w.put t (scheduleWord w t)) r) := by
  simp [execExpand_eq_next, h16]

theorem execCopy_withHidden :
    exec .copy (s.withHidden w r) = .next ((s.goto .round 0#6).withHidden w (workingOf s.H)) := by
  simp [execCopy_eq_next]

end

variable {s v : State} {i : Instr} {t : BitVec 6} {w w' : Bank Word 6} {r r' : Working} {a b : Result}

/-! ### States and answers that an observer cannot tell apart -/

/-- States with the same live state are one state with two hidden parts. -/
theorem State.SameLive.exists_withHidden (h : s.SameLive v) : ∃ w r, v = s.withHidden w r := by
  obtain ⟨hH, hM, hp, ht, hw, hr, he, hv, hd, -, -⟩ := h
  exact ⟨v.W, v.reg, by simp only [State.withHidden, State.setW, State.setReg, hH, hM, hp, ht, hw, hr, he, hv, hd]⟩

/-- Two hidden parts leave the live state the same when they agree on the words already computed and, in the rounds, on
the registers. -/
theorem State.sameLive_withHidden (hW : ∀ j : BitVec 6, j.toNat < scheduleDone s.phase s.t → w.get j = w'.get j)
    (hr : roundsDone s.phase s.t ≠ none → r = r') : (s.withHidden w r).SameLive (s.withHidden w' r') :=
  ⟨rfl, rfl, rfl, rfl, rfl, rfl, rfl, rfl, rfl, hW, hr⟩

theorem State.SameLive.refl (s : State) : s.SameLive s :=
  ⟨rfl, rfl, rfl, rfl, rfl, rfl, rfl, rfl, rfl, fun _ _ => rfl, fun _ => rfl⟩

/-- With a whole schedule computed, all of `W` is live. -/
theorem State.SameLive.schedule_eq (h : (s.withHidden w r).SameLive (s.withHidden w' r'))
    (hd : scheduleDone s.phase s.t = 64) : w = w' :=
  Bank.ext_get fun j => h.W j (lt_of_lt_of_eq j.isLt hd.symm)

/-- In the rounds all of the hidden part is live. -/
theorem State.SameLive.hidden_eq (h : (s.withHidden w r).SameLive (s.withHidden w' r'))
    (hd : scheduleDone s.phase s.t = 64) (hr : roundsDone s.phase s.t ≠ none) : w = w' ∧ r = r' :=
  ⟨h.schedule_eq hd, h.reg hr⟩

/-- Two answers alike: the same refusal, the same fault, or next states with the same live state. -/
inductive AnswersAlike : Result → Result → Prop
  | next {u w : State} (h : u.SameLive w) : AnswersAlike (.next u) (.next w)
  | fault (f : Fault) : AnswersAlike (.fault f) (.fault f)
  | refused (x : Refusal) : AnswersAlike (.refused x) (.refused x)

theorem AnswersAlike.refl : (a : Result) → AnswersAlike a a
  | .next s => .next (.refl s)
  | .fault f => .fault f
  | .refused x => .refused x

/-! ### Commands: no precondition and no result of a command is in the hidden part -/

/-- A check that holds in both states or in neither keeps answers alike. -/
theorem AnswersAlike.ite (c : Bool) (x : Refusal) (h : AnswersAlike a b) :
    AnswersAlike (if c then a else .refused x) (if c then b else .refused x) := by
  split
  · exact h
  · exact .refused x

theorem AnswersAlike.whenReady (h : AnswersAlike a b) :
    AnswersAlike ((s.withHidden w r).whenReady a) ((s.withHidden w' r').whenReady b) :=
  h.ite s.ready _

theorem AnswersAlike.whenBlockWritten (h : AnswersAlike a b) :
    AnswersAlike ((s.withHidden w r).whenBlockWritten a) ((s.withHidden w' r').whenBlockWritten b) :=
  h.ite s.allWritten _

theorem AnswersAlike.whenWordWritten (k : BitVec 4) (h : AnswersAlike a b) :
    AnswersAlike ((s.withHidden w r).whenWordWritten k a) ((s.withHidden w' r').whenWordWritten k b) :=
  h.ite (s.written.get k) _

/-- In `(LOAD, 0)`, where `START` and `INITSTART` lead, all of the hidden part is dead. -/
theorem State.sameLive_goto_load (s : State) :
    ((s.goto .load 0#6).withHidden w r).SameLive ((s.goto .load 0#6).withHidden w' r') :=
  sameLive_withHidden (fun _ hj => absurd hj (Nat.not_lt_zero _)) (absurd rfl)

/-- A host command answers alike in states with the same live state. -/
theorem exec_command_alike (hc : isMicroOp i = false) (h : (s.withHidden w r).SameLive (s.withHidden w' r')) :
    AnswersAlike (exec i (s.withHidden w r)) (exec i (s.withHidden w' r')) := by
  cases i with
  | nopc => exact .whenReady (.next h)
  | init => exact .whenReady (.next (State.sameLive_withHidden (s := s.loadIV) h.W h.reg))
  | start => exact .whenReady (.whenBlockWritten (.next s.sameLive_goto_load))
  | initstart => exact .whenReady (.whenBlockWritten (.next s.loadIV.sameLive_goto_load))
  | wrblk k x => exact .whenReady (.next (State.sameLive_withHidden (s := s.writeBlock k x) h.W h.reg))
  | rdblk k => exact .whenWordWritten k (.next (State.sameLive_withHidden (s := s.reply _) h.W h.reg))
  | rdh k => exact .next (State.sameLive_withHidden (s := (s.reply _).drew _) h.W h.reg)
  | rdst => exact .next (State.sameLive_withHidden (s := s.reply _) h.W h.reg)
  | loadw | expand | copy | round | accum => cases hc

/-! ### Micro-operations: each, run from its own selector, reads live state only -/

/-- `LOADW` fills the sixteen words that become live from the block buffer. -/
theorem execLoadw_alike : AnswersAlike (exec .loadw (s.withHidden w r)) (exec .loadw (s.withHidden w' r')) := by
  rw [execLoadw_withHidden, execLoadw_withHidden]
  refine .next (State.sameLive_withHidden (fun j hj => ?_) (absurd rfl))
  have hlt : j < 16#6 := hj
  rw [loadSchedule_get_lt _ _ hlt, loadSchedule_get_lt _ _ hlt]

/-- `EXPAND[t]` leaves the words up to `W[t]` computed, at the end of the loop too, and no round begun. -/
theorem progress_loopOr_expand (s : State) (t : BitVec 6) :
    scheduleDone (s.loopOr .expand .copy t).phase (s.loopOr .expand .copy t).t = t.toNat + 1 ∧
      roundsDone (s.loopOr .expand .copy t).phase (s.loopOr .expand .copy t).t = none := by
  by_cases hlt : t < 63#6
  · rw [State.loopOr_of_lt _ _ _ hlt]
    refine ⟨?_, rfl⟩
    change (t + 1#6).toNat = _
    bv_omega
  · obtain rfl := State.eq_last_of_not_lt hlt
    exact ⟨rfl, rfl⟩

/-- Schedules that agree below `t` agree up to `t` once both have word `t` computed. -/
theorem put_scheduleWord_congr (h16 : 16#6 ≤ t) (hW : ∀ j : BitVec 6, j.toNat < t.toNat → w.get j = w'.get j)
    {j : BitVec 6} (hj : j.toNat < t.toNat + 1) :
    (w.put t (scheduleWord w t)).get j = (w'.put t (scheduleWord w' t)).get j := by
  by_cases he : j = t
  · rw [he, Bank.get_put_same, Bank.get_put_same, scheduleWord_congr h16 hW]
  · rw [Bank.get_put_ne _ _ he, Bank.get_put_ne _ _ he]
    exact hW j (Nat.lt_of_le_of_ne (Nat.le_of_lt_succ hj) fun e => he (BitVec.eq_of_toNat_eq e))

/-- `EXPAND[t]` computes `W[t]` from the words below it. -/
theorem execExpand_alike (h16 : 16#6 ≤ t) (hW : ∀ j : BitVec 6, j.toNat < t.toNat → w.get j = w'.get j) :
    AnswersAlike (exec (.expand t) (s.withHidden w r)) (exec (.expand t) (s.withHidden w' r')) := by
  obtain ⟨hdone, hnone⟩ := progress_loopOr_expand s t
  rw [execExpand_withHidden s w r h16, execExpand_withHidden s w' r' h16]
  exact .next (State.sameLive_withHidden
    (fun j hj => put_scheduleWord_congr h16 hW (lt_of_lt_of_eq hj hdone)) (absurd hnone))

/-- A micro-operation answers alike in states with the same live state. -/
theorem exec_microOp_alike (hm : microOp s.phase s.t = .ok i) (h : (s.withHidden w r).SameLive (s.withHidden w' r')) :
    AnswersAlike (exec i (s.withHidden w r)) (exec i (s.withHidden w' r')) := by
  have hW : ∀ j : BitVec 6, j.toNat < scheduleDone s.phase s.t → w.get j = w'.get j := h.W
  rcases microOp_eq_ok.mp hm with
    ⟨-, -, rfl⟩ | ⟨hp, h16, rfl⟩ | ⟨hp, -, rfl⟩ | ⟨hp, rfl⟩ | ⟨hp, -, rfl⟩
  · exact execLoadw_alike
  · rw [hp] at hW
    exact execExpand_alike h16 hW
  · obtain rfl := h.schedule_eq (by rw [hp]; rfl)
    rw [execCopy_withHidden, execCopy_withHidden]
    exact .refl _
  · obtain ⟨rfl, rfl⟩ := h.hidden_eq (by rw [hp]; rfl) (by rw [hp]; nofun)
    exact .refl _
  · obtain ⟨rfl, rfl⟩ := h.hidden_eq (by rw [hp]; rfl) (by rw [hp]; nofun)
    exact .refl _

/-! ### Steps -/

/-- The hidden part has no say in what the next step is, and what the step is answers alike. -/
theorem step_alike (h : (s.withHidden w r).SameLive (s.withHidden w' r')) :
    AnswersAlike (step (s.withHidden w r)) (step (s.withHidden w' r')) := by
  have hfetch : (s.afterFetch.withHidden w r).SameLive (s.afterFetch.withHidden w' r') :=
    State.sameLive_withHidden h.W h.reg
  cases hm : s.nextMove with
  | reset =>
    rw [step_of_reset (s := s.withHidden w r) hm, step_of_reset (s := s.withHidden w' r') hm]
    exact .refl (.next s.afterFetch.applyReset)
  | run i =>
    rw [step_of_run (s := s.withHidden w r) hm, step_of_run (s := s.withHidden w' r') hm]
    cases hk : isMicroOp i with
    | true => exact exec_microOp_alike (microOp_afterFetch hm hk) hfetch
    | false => exact exec_command_alike hk hfetch
  | idle =>
    rw [step_of_idle (s := s.withHidden w r) hm, step_of_idle (s := s.withHidden w' r') hm]
    exact .next hfetch
  | refuse x =>
    rw [step_of_refuse (s := s.withHidden w r) hm, step_of_refuse (s := s.withHidden w' r') hm]
    exact .refl _
  | unreachable =>
    rw [step_of_unreachable (s := s.withHidden w r) hm, step_of_unreachable (s := s.withHidden w' r') hm]
    exact .refl _

/-- Settles O48: the two states are one state with two hidden parts, and no step reads what is dead of them. -/
theorem deadStateIsUnobservable : Obligations.DeadStateIsUnobservable := by
  intro s v h
  have halike : AnswersAlike (step s) (step v) := by
    obtain ⟨w, r, rfl⟩ := h.exists_withHidden
    exact step_alike (s := s) (w := s.W) (r := s.reg) h
  generalize step s = a, step v = b at halike
  cases halike with
  | next hu => exact ⟨nofun, nofun, fun _ e => by cases e; exact ⟨_, rfl, hu⟩⟩
  | fault f => exact ⟨nofun, fun _ e => e, nofun⟩
  | refused x => exact ⟨fun _ e => e, nofun, nofun⟩

end Sys2Proof.Machine
end

section
/-!
PROOFS. The micro-operations one by one: what all five leave unchanged, `LOADW` and `EXPAND` in full, and the words of
`SCHED` (`41_schedule.md` R100 to R102).
-/

namespace Sys2Proof.Machine

variable {s u : State} {i : Instr} {t : BitVec 6}

/-- No micro-operation writes a "written" mark. -/
theorem exec_microOp_written (hk : isMicroOp i = true) (he : exec i s = .next u) : u.written = s.written := by
  refine Bank.ext_get fun j => ?_
  rcases exec_blockWord he j with ⟨-, hw⟩ | ⟨v, rfl, -⟩
  · exact hw
  · cases hk

/-- No micro-operation returns a word to the host. -/
theorem exec_microOp_returned (hk : isMicroOp i = true) (he : exec i s = .next u) : u.returned = s.returned := by
  have hu := exec_cases he
  cases i with
  | loadw | expand | copy | round | accum => obtain rfl : u = _ := hu; simp
  | nopc | init | start | initstart | wrblk | rdblk | rdh | rdst => cases hk

/-- Settles O29: the writers of `H`, of the working registers and of each schedule word, among the micro-operations. -/
theorem microOpsFrame : Obligations.MicroOpsFrame := by
  intro s u i hk he
  obtain ⟨hmark, hpending⟩ := exec_refused_pending he
  refine ⟨exec_microOp_block hk he, exec_microOp_written hk he, exec_microOp_returned hk he, hmark, hpending,
    fun hna => ?_, fun hnc hnr => ?_, fun j hj hne => ?_⟩
  · rcases exec_hashState he with hH | ⟨rfl | rfl, -⟩ | ⟨hi, -⟩
    · exact hH
    · cases hk
    · cases hk
    · exact absurd hi hna
  · rcases exec_working he with hreg | hi | ⟨t, hi⟩
    · exact hreg
    · exact absurd hi hnc
    · exact absurd hi (hnr t)
  · rcases exec_scheduleWord he j with hW | ⟨hi, hlt⟩ | hi
    · exact hW
    · exact absurd (hj hi) (BitVec.not_le.mpr hlt)
    · exact absurd hi hne

/-! ### The schedule -/

/-- The first sixteen indices of `W` are those of `M`, with two zero bits in front. -/
theorem blockIndex_lt (i : BitVec 4) : 0#2 ++ i < 16#6 := by revert i; decide

theorem extractLsb'_blockIndex (i : BitVec 4) : (0#2 ++ i).extractLsb' 0 4 = i := by revert i; decide

theorem loadSchedule_get_block (m : BitVec 4 → Word) (w : Bank Word 6) (i : BitVec 4) :
    (loadSchedule m w).get (0#2 ++ i) = m i :=
  (loadSchedule_get_lt m w (blockIndex_lt i)).trans (congrArg m (extractLsb'_blockIndex i))

theorem sched_get_block (m : Bank Word 4) (i : BitVec 4) : (sched m).get (0#2 ++ i) = m.get i :=
  (sched_get_lt m (blockIndex_lt i)).trans (congrArg m.get (extractLsb'_blockIndex i))

/-- The sum of `EXPAND`, written with `+` (`40_word_functions.md` R80). -/
theorem scheduleWord_eq (w : Bank Word 6) (t : BitVec 6) :
    scheduleWord w t = w.get (t - 16#6) + ssig0 (w.get (t - 15#6)) + w.get (t - 7#6) + ssig1 (w.get (t - 2#6)) := rfl

/-- At `COPY` the invariant has all 64 words computed. -/
theorem State.Inv.schedule_of_copy (hI : s.Inv) (hp : s.phase = .copy) : s.W = sched s.M :=
  Bank.ext_get fun j => hI.schedule j (by rw [hp]; exact j.isLt)

/-- Settles O54: the words of `SCHED` by index, and the invariant at `COPY`. -/
theorem scheduleRecurrence : Obligations.ScheduleRecurrence := by
  refine ⟨fun m => ⟨sched_get_block m, fun t ht => ?_⟩, fun s hI hp => hI.schedule_of_copy hp⟩
  rw [← scheduleWord_eq]
  exact sched_get_ge m ht

/-! ### `LOADW` -/

/-- A block word is the big-endian number of its four bytes (`20_memory.md` R45). -/
theorem blockWord_toNat (m : Bank Word 4) (i : BitVec 4) :
    (m.get i).toNat = (blockByte m (i ++ 0#2)).toNat * 2 ^ 24 + (blockByte m (i ++ 1#2)).toNat * 2 ^ 16 +
      (blockByte m (i ++ 2#2)).toNat * 2 ^ 8 + (blockByte m (i ++ 3#2)).toNat := by
  rw [← packWord_toNat, ← blockOfBytes_get, blockOfBytes_blockByte]

/-- With every block word written, `LOADW` draws no free value. -/
theorem execLoadw_of_written (hw : ∀ i, s.written.get i = true) :
    exec .loadw s = .next { s with W := loadSchedule s.loadWord s.W, phase := .expand, t := 16#6 } := by
  rw [execLoadw_eq_next, if_pos (State.allWritten_iff.mpr hw)]
  simp only [State.setW, State.drew, State.goto, Nat.add_zero]

/-- Settles O21: with every block word written the words `LOADW` loads are the block's own. -/
theorem loadwCopiesBlock : Obligations.LoadwCopiesBlock := by
  refine ⟨decodeEncodeRoundTrip .loadw trivial, fun s hw =>
    ⟨_, execLoadw_of_written hw, rfl, fun i => ?_, fun j hj => loadSchedule_get_ge _ _ (BitVec.not_lt.mpr hj)⟩⟩
  have hget : (loadSchedule s.loadWord s.W).get (0#2 ++ i) = s.M.get i :=
    (loadSchedule_get_block _ _ i).trans (State.loadWord_of_written (hw i))
  exact ⟨hget, (congrArg BitVec.toNat hget).trans (blockWord_toNat s.M i)⟩

/-! ### `EXPAND` -/

/-- The loop on `t` as a record update (`10_state.md` R28). -/
theorem State.loopOr_eq (s : State) (p q : Phase) (t : BitVec 6) :
    s.loopOr p q t =
      { s with phase := if t < 63#6 then p else q, t := if t < 63#6 then t + 1#6 else 0#6 } := by
  unfold State.loopOr; split <;> rfl

/-- Settles O23: the selector is the encoding of `EXPAND[t]`, which puts the sum into word `t` and takes the
loop's next step. -/
theorem expandComputesScheduleWord : Obligations.ExpandComputesScheduleWord := by
  intro s t h16
  refine ⟨decodeEncodeRoundTrip (.expand t) h16, ?_⟩
  rw [execExpand_eq_next, ← scheduleWord_eq, State.loopOr_eq, State.setW]
  exact ⟨h16, rfl⟩

end Sys2Proof.Machine
end

section
/-!
PROOFS. The micro-operations `COPY`, `ROUND` and `ACCUM` in full, and the sums of the rounds and of the expander as
numbers (`42_compression.md` R110 to R117).
-/

namespace Sys2Proof.Machine

/-! ### The three micro-operations -/

/-- Settles O24: the selector is the encoding of `COPY`, which reads the eight hash words. -/
theorem copyLoadsRegisters : Obligations.CopyLoadsRegisters :=
  ⟨decodeEncodeRoundTrip .copy trivial, fun _ => execCopy_eq_next.mpr rfl⟩

/-- Settles O25: the selector is the encoding of `ROUND[t]`, which replaces the registers all at once and takes the
loop's next step. -/
theorem roundUpdatesRegisters : Obligations.RoundUpdatesRegisters := by
  rintro s t T1 T2 rfl rfl
  refine ⟨decodeEncodeRoundTrip (.round t) trivial, ?_⟩
  rw [execRound_eq_next, State.loopOr_eq, State.setReg]
  rfl

/-- Settles O26: the selector is the encoding of `ACCUM`, whose sums are word by word. -/
theorem accumAddsRegisters : Obligations.AccumAddsRegisters :=
  ⟨decodeEncodeRoundTrip .accum trivial, fun s =>
    have hsum := accumulate_get s.H s.reg
    ⟨_, execAccum_eq_next.mpr rfl, rfl, rfl, hsum 0, hsum 1, hsum 2, hsum 3, hsum 4, hsum 5, hsum 6, hsum 7⟩⟩

/-- Settles O44: `ACCUM` runs from its own selector, where the invariant has the registers through all 64 rounds. -/
theorem accumLeavesCompression : Obligations.AccumLeavesCompression := by
  intro s hI hmove
  obtain ⟨hp, -⟩ : s.phase = .accum ∧ s.t = 0#6 := by simpa using microOp_eq_ok.mp (microOp_of_nextMove hmove rfl)
  exact ⟨_, (step_of_run hmove).trans (execAccum_eq_next.mpr rfl), hI.accumulate_eq_compress hp, rfl, rfl⟩

/-! ### Sums -/

/-- Five operands (`42_compression.md` R114). -/
theorem roundT1_toNat (r : Working) (k w : Word) : (roundT1 r k w).toNat =
    (r.h.toNat + (bsig1 r.e).toNat + (ch r.e r.f r.g).toNat + k.toNat + w.toNat) % 2 ^ 32 := by
  simp only [roundT1, add32_toNat, Nat.mod_add_mod]

/-- Two operands (`42_compression.md` R115). -/
theorem roundT2_toNat (r : Working) :
    (roundT2 r).toNat = ((bsig0 r.a).toNat + (maj r.a r.b r.c).toNat) % 2 ^ 32 :=
  add32_toNat _ _

/-- The new `e` has six operands, `d` and those of `T1`. -/
theorem rnd_e_toNat (r : Working) (k w : Word) : (rnd r k w).e.toNat =
    (r.d.toNat + r.h.toNat + (bsig1 r.e).toNat + (ch r.e r.f r.g).toNat + k.toNat + w.toNat) % 2 ^ 32 := by
  simp only [rnd, add32_toNat, roundT1_toNat, Nat.add_mod_mod, Nat.add_assoc]

/-- The new `a` has seven operands, those of `T1` and of `T2`. -/
theorem rnd_a_toNat (r : Working) (k w : Word) : (rnd r k w).a.toNat =
    (r.h.toNat + (bsig1 r.e).toNat + (ch r.e r.f r.g).toNat + k.toNat + w.toNat + (bsig0 r.a).toNat +
      (maj r.a r.b r.c).toNat) % 2 ^ 32 := by
  simp only [rnd, add32_toNat, roundT1_toNat, roundT2_toNat, Nat.mod_add_mod, Nat.add_mod_mod, Nat.add_assoc]

/-- Four operands (`41_schedule.md` R101). -/
theorem scheduleWord_toNat (w : Bank Word 6) (t : BitVec 6) : (scheduleWord w t).toNat =
    ((w.get (t - 16#6)).toNat + (ssig0 (w.get (t - 15#6))).toNat + (w.get (t - 7#6)).toNat +
      (ssig1 (w.get (t - 2#6))).toNat) % 2 ^ 32 := by
  simp only [scheduleWord, add32_toNat, Nat.mod_add_mod]

/-- Settles O53: a reduction of a partial sum is absorbed by the reduction of the whole. -/
theorem sumsReducedOnce : Obligations.SumsReducedOnce :=
  ⟨roundT1_toNat, roundT2_toNat, rnd_e_toNat, rnd_a_toNat, scheduleWord_toNat⟩

end Sys2Proof.Machine
end

section
/-!
PROOFS. A compression from its `START` to its end, counted in engine turns, with reads anywhere between them
(`42_compression.md` R113, `20_memory.md` R52).
-/

namespace Sys2Proof.Machine

variable {s u : State} {i : Instr} {h : Bank Word 3} {w : Bank Word 4} {c n : Nat} {wait rest : List Event}

/-- An engine that has had `c` turns since it began to compress the block `w`, all of it written, into the hash state
`h`: the first 115 turns are the compression's micro-operations, and any further ones are empty. -/
structure State.AfterTurns (s : State) (h : Bank Word 3) (w : Bank Word 4) (c : Nat) : Prop where
  compressing : s.Compressing h w
  written : ∀ i, s.written.get i = true
  left : stepsLeft s.phase s.t = 115 - c

/-- What is pending, what has been returned and what has been drawn is not the compression's. -/
theorem State.AfterTurns.congr (hs : s.AfterTurns h w c) (es : List Event) (vs : List Word) (d : Nat) :
    State.AfterTurns { s with pending := es, returned := vs, draws := d } h w c :=
  have hc := hs.compressing
  ⟨⟨hc.unmarked, hc.inv.congr rfl rfl rfl rfl rfl rfl rfl, hc.block, hc.busy, hc.done⟩, hs.written, hs.left⟩

/-- Before the 115th turn the engine is busy and `H` is what it was. -/
theorem State.AfterTurns.busy (hs : s.AfterTurns h w c) (hlt : c < 115) : s.ready = false ∧ s.H = h := by
  have hb : s.phase ≠ .idle := fun hi => by
    have hleft := hs.left
    rw [hi, stepsLeft] at hleft
    omega
  exact ⟨State.not_ready_iff.mpr hb, hs.compressing.busy hb⟩

/-- From the 115th turn on the engine is idle and `H` is the compression. -/
theorem State.AfterTurns.over (hs : s.AfterTurns h w c) (hle : 115 ≤ c) :
    s.phase = .idle ∧ s.t = 0#6 ∧ s.H = compress h w := by
  have hi : s.phase = .idle := stepsLeft_eq_zero (hs.left.trans (Nat.sub_eq_zero_of_le hle))
  exact ⟨hi, (hs.compressing.atRest hi).index, hs.compressing.done hi⟩

/-- Neither a micro-operation nor an empty turn writes a "written" mark or returns a word. -/
theorem step_turn_frame (hr : s.refused = none) (hl : legalSelector s.phase s.t) (ht : s.EngineTurn)
    (hu : step s = .next u) : u.written = s.written ∧ u.returned = s.returned := by
  rcases step_turn_cases hr hl ht with ⟨-, hstep⟩ | ⟨i, v, hm, he, hstep⟩ <;> cases hu.symm.trans hstep
  · exact ⟨rfl, rfl⟩
  · have hk := (isMicroOp_of_microOp hm).1
    exact ⟨exec_microOp_written (s := s.afterFetch) hk he, exec_microOp_returned (s := s.afterFetch) hk he⟩

/-- One more turn. -/
theorem State.AfterTurns.turn (hs : s.AfterTurns h w c) (ht : s.EngineTurn) :
    ∃ u, step s = .next u ∧ u.AfterTurns h w (c + 1) ∧ u.pending = s.pending.tail ∧ u.returned = s.returned := by
  have hr := hs.compressing.unmarked
  have hl := hs.compressing.inv.legal
  obtain ⟨u, hu, hc, -⟩ := hs.compressing.step_turn ht
  obtain ⟨v, hv, -, hp, -, hn⟩ := step_turn hr hl ht
  cases hu.symm.trans hv
  obtain ⟨hw, hret⟩ := step_turn_frame hr hl ht hu
  exact ⟨u, hu, ⟨hc, hw ▸ hs.written, by rw [hn, hs.left, Nat.sub_sub]⟩, hp, hret⟩

/-- With every block word written a read is never refused, and it leaves the compression alone. -/
theorem State.AfterTurns.exec_read (hs : s.AfterTurns h w c) (hk : isRead i = true) :
    ∃ u, exec i s = .next u ∧ u.AfterTurns h w c ∧ u.pending = s.pending := by
  cases i with
  | rdblk j => exact ⟨_, execRdblk_eq_next.mpr ⟨hs.written j, rfl⟩, hs.congr _ _ _, rfl⟩
  | rdh j => exact ⟨_, execRdh_eq_next.mpr rfl, hs.congr _ _ _, rfl⟩
  | rdst => exact ⟨_, execRdst_eq_next.mpr rfl, hs.congr _ _ _, rfl⟩
  | nopc | init | start | initstart | wrblk | loadw | expand | copy | round | accum => cases hk

/-- The events that leave a compression alone: the engine's turn, and a transaction that decodes to a read. -/
theorem isWaiting_cases {e : Event} (he : isWaiting e = true) :
    e = .engine ∨ ∃ x i, e = .bus x ∧ decode (.bus x) = .ok i ∧ isRead i = true := by
  cases e with
  | engine => exact .inl rfl
  | reset => cases he
  | bus x =>
    cases hd : decode (.bus x) with
    | ok i => exact .inr ⟨x, i, rfl, hd, by simpa only [isWaiting, hd] using he⟩
    | error r => simp [isWaiting, hd] at he

/-- One of the events that leave a compression alone; only the engine's turn counts. -/
theorem State.AfterTurns.step_waiting {e : Event} (hs : s.AfterTurns h w c) (hp : s.pending = e :: rest)
    (he : isWaiting e = true) :
    ∃ u, step s = .next u ∧ u.AfterTurns h w (c + [e].count .engine) ∧ u.pending = rest := by
  rcases isWaiting_cases he with rfl | ⟨x, i, rfl, hd, hk⟩
  · obtain ⟨u, hu, hc, hpu, -⟩ := hs.turn (.inr (by rw [hp]; rfl))
    exact ⟨u, hu, hc, by rw [hpu, hp, List.tail_cons]⟩
  · obtain ⟨u, hu, hc, hpu⟩ := (hs.congr rest s.returned s.draws).exec_read hk
    exact ⟨u, (stepRunsTransaction s x rest i hs.compressing.unmarked hp hd).trans hu, hc, hpu⟩

/-- Turns and reads in any order. -/
theorem State.AfterTurns.run_waiting (hs : s.AfterTurns h w c) (hp : s.pending = wait ++ rest)
    (hw : ∀ e ∈ wait, isWaiting e = true) :
    ∃ u, run wait.length s = .next u ∧ u.AfterTurns h w (c + wait.count .engine) ∧ u.pending = rest := by
  induction wait generalizing s c with
  | nil => exact ⟨s, rfl, hs, hp⟩
  | cons e es ih =>
    obtain ⟨v, hv, hc, hpv⟩ := hs.step_waiting hp (hw e List.mem_cons_self)
    obtain ⟨u, hu, hcu, hpu⟩ := ih hc hpv fun e he => hw e (List.mem_cons_of_mem _ he)
    rw [Nat.add_assoc, ← List.count_append] at hcu
    exact ⟨u, by rw [List.length_cons, run_succ, hv]; exact hu, hcu, hpu⟩

/-- Turns alone, with nothing pending (`70_reset_and_hazards.md` R208, log entry 4). -/
theorem State.AfterTurns.run_turns (hs : s.AfterTurns h w c) (hp : s.pending = []) (n : Nat) :
    ∃ u, run n s = .next u ∧ u.AfterTurns h w (c + n) ∧ u.returned = s.returned := by
  induction n generalizing s c with
  | zero => exact ⟨s, rfl, hs, rfl⟩
  | succ n ih =>
    obtain ⟨v, hv, hc, hpv, hret⟩ := hs.turn (.inl hp)
    obtain ⟨u, hu, hcu, hretu⟩ := ih hc (by rw [hpv, hp, List.tail_nil])
    rw [Nat.add_right_comm] at hcu
    exact ⟨u, by rw [run_succ, hv]; exact hu, hcu, hretu.trans hret⟩

/-- `START` begins a compression of the block in `M` into `H`, with no turn taken yet. -/
theorem step_start (hr : s.refused = none) (hi : s.phase = .idle) (hw : ∀ i, s.written.get i = true)
    (hp : s.pending = eventOf .start :: rest) :
    ∃ u, step s = .next u ∧ u.AfterTurns s.H s.M 0 ∧ u.pending = rest ∧ u.returned = s.returned :=
  ⟨_, (stepRunsTransaction s _ _ _ hr hp rfl).trans (execStart_eq_next.mpr ⟨hi, hw, rfl⟩),
    ⟨.of_load hr rfl rfl hw, hw, rfl⟩, rfl, rfl⟩

/-- Settles O45: with nothing pending behind the `START` each step is a turn, so that `n` steps are `n - 1` turns. That
the engine takes its turn when nothing is pending is the choice of log entry 4. -/
theorem startComputesCompression : Obligations.StartComputesCompression := by
  intro s hr hi hw hp
  obtain ⟨v, hv, hstart, hpv, hretv⟩ := step_start hr hi hw hp
  have hrun (n : Nat) : ∃ u, run (n + 1) s = .next u ∧ u.AfterTurns s.H s.M n ∧ u.returned = s.returned := by
    obtain ⟨u, hu, hc, hret⟩ := hstart.run_turns hpv n
    rw [Nat.zero_add] at hc
    exact ⟨u, by rw [run_succ, hv]; exact hu, hc, hret.trans hretv⟩
  refine ⟨?_, fun n h1 hn => ?_⟩
  · obtain ⟨u, hu, hc, hret⟩ := hrun 115
    obtain ⟨hidle, ht, hH⟩ := hc.over le_rfl
    exact ⟨u, hu, hidle, ht, hH, hc.compressing.block, Bank.ext_get fun i => (hc.written i).trans (hw i).symm, hret⟩
  · obtain ⟨n, rfl⟩ := Nat.exists_eq_add_of_le' h1
    obtain ⟨u, hu, hc, -⟩ := hrun n
    obtain ⟨hb, hH⟩ := hc.busy (Nat.succ_lt_succ_iff.mp hn)
    exact ⟨u, hu, hb, hH, hc.compressing.block⟩

/-- Settles O46: a read leaves the compression alone, so that of the `n` events behind the `START` only the engine's
turns count. -/
theorem readsDoNotDisturbCompression : Obligations.ReadsDoNotDisturbCompression := by
  intro s wait rest hr hi hw hp hwait n hn
  obtain ⟨v, hv, hstart, hpv, -⟩ := step_start (rest := wait ++ rest) hr hi hw hp
  have hsplit : v.pending = wait.take n ++ (wait.drop n ++ rest) := by
    rw [hpv, ← List.append_assoc, List.take_append_drop]
  obtain ⟨u, hu, hc, hpu⟩ := hstart.run_waiting hsplit fun e he => hwait e (List.mem_of_mem_take he)
  rw [List.length_take_of_le hn] at hu
  rw [Nat.zero_add] at hc
  refine ⟨u, ?_, hpu, hc.compressing.block, Bank.ext_get fun i => (hc.written i).trans (hw i).symm,
    hc.compressing.unmarked, fun hlt => ⟨hc.left, hc.busy hlt⟩, hc.over⟩
  rw [run_add (run_one hv), hu]

end Sys2Proof.Machine
end

section
/-!
PROOFS. The host commands: the frame of the five writes, then each of the eight with its transaction word, from the
table of `30_encoding.md` R61 (`43_commands.md` R130 to R138).
-/

namespace Sys2Proof.Machine

variable {s u : State} {i : Instr}

/-! ### What the write commands leave unchanged -/

/-- A write command is no micro-operation. -/
theorem not_isMicroOp_of_isWrite (hk : isWrite i = true) : isMicroOp i = false := by
  cases i with
  | nopc | init | start | initstart | wrblk => rfl
  | rdblk | rdh | rdst | loadw | expand | copy | round | accum => cases hk

/-- No write command writes the message schedule. -/
theorem exec_write_schedule (hk : isWrite i = true) (he : exec i s = .next u) : u.W = s.W := by
  refine Bank.ext_get fun j => ?_
  rcases exec_scheduleWord he j with hW | ⟨rfl, -⟩ | rfl
  · exact hW
  · cases hk
  · cases hk

/-- No write command writes a working register. -/
theorem exec_write_working (hk : isWrite i = true) (he : exec i s = .next u) : u.reg = s.reg := by
  rcases exec_working he with hreg | rfl | ⟨t, rfl⟩
  · exact hreg
  · cases hk
  · cases hk

/-- No write command returns a word to the host or draws a free value. -/
theorem exec_write_returned_draws (hk : isWrite i = true) (he : exec i s = .next u) :
    u.returned = s.returned ∧ u.draws = s.draws := by
  have hu := exec_cases he
  cases i with
  | nopc | init | wrblk => obtain ⟨-, rfl⟩ := hu; exact ⟨rfl, rfl⟩
  | start | initstart => obtain ⟨-, -, rfl⟩ := hu; exact ⟨rfl, rfl⟩
  | rdblk | rdh | rdst | loadw | expand | copy | round | accum => cases hk

/-- Settles O28: the writers of each part of the state, among the write commands. -/
theorem writesFrame : Obligations.WritesFrame := by
  intro s u i hk he
  obtain ⟨hmark, hpending⟩ := exec_refused_pending he
  obtain ⟨hreturned, hdraws⟩ := exec_write_returned_draws hk he
  refine ⟨exec_write_schedule hk he, exec_write_working hk he, hreturned, hmark, hpending, hdraws,
    fun hni hnis => ?_, fun hns hnis => ?_, fun j hnw => ?_⟩
  · rcases exec_hashState he with hH | ⟨hi | hi, -⟩ | ⟨rfl, -⟩
    · exact hH
    · exact absurd hi hni
    · exact absurd hi hnis
    · cases hk
  · rcases exec_command_selector (not_isMicroOp_of_isWrite hk) he with ⟨hi | hi, -⟩ | hsel
    · exact absurd hi hns
    · exact absurd hi hnis
    · exact Prod.mk.inj hsel
  · rcases exec_blockWord he j with hM | ⟨v, hi, -⟩
    · exact hM
    · exact absurd hi (hnw v)

/-! ### Writes of `CTRL` -/

/-- Settles O9: with `READY = 1` the precondition passes, and `NOPC` has no effect of its own. -/
theorem nopcDoesNothing : Obligations.NopcDoesNothing :=
  ⟨decodeEncodeRoundTrip .nopc trivial, fun _ hi => execNopc_eq_next.mpr ⟨hi, rfl⟩⟩

/-- Settles O10: with `READY = 1` the precondition passes, and `INIT` loads the `IV` that reset loads. -/
theorem initLoadsInitialValue : Obligations.InitLoadsInitialValue :=
  ⟨decodeEncodeRoundTrip .init trivial, fun _ hi => execInit_eq_next.mpr ⟨hi, rfl⟩, rfl⟩

/-- Settles O11: with `READY = 1` and the block written both preconditions pass, and `(LOAD, 0)` is busy. -/
theorem startBeginsCompression : Obligations.StartBeginsCompression :=
  ⟨decodeEncodeRoundTrip .start trivial, fun _ hi hw => ⟨_, execStart_eq_next.mpr ⟨hi, hw, rfl⟩, rfl, rfl⟩⟩

/-- Settles O12: `INIT` leaves `READY` and the written marks alone, so that `START` is accepted in the state it
leaves, as `INITSTART` is in the state it finds. -/
theorem initstartIsInitThenStart : Obligations.InitstartIsInitThenStart := by
  refine ⟨decodeEncodeRoundTrip .initstart trivial, fun s hi hw => ?_⟩
  have hboth : exec .initstart s = .next (s.loadIV.goto .load 0#6) := execInitstart_eq_next.mpr ⟨hi, hw, rfl⟩
  exact ⟨_, hboth, rfl, rfl, s.loadIV, execInit_eq_next.mpr ⟨hi, rfl⟩,
    (execInitstart_eq_start_loadIV s).symm.trans hboth⟩

/-! ### The block buffer -/

/-- The word of `WRBLK i, v` as a number (`30_encoding.md` R61). -/
theorem decode_wrblk_ofNat (i : BitVec 4) (v : Word) :
    decode (.bus (BitVec.ofNat 39 (0x5000000000 + i.toNat * 2 ^ 32 + v.toNat))) = .ok (.wrblk i v) := by
  rw [ofNat_eq_busWord (rw := true) (off := (WindowReg.block i).offset) (v := v)
    (by rw [block_offset_toNat, Bool.toNat_true]; omega)]
  exact decode_bus_eq_ok.mpr (decodeBus_wrblk i v)

/-- The word of `RDBLK i` as a number (R61). -/
theorem decode_rdblk_ofNat (i : BitVec 4) :
    decode (.bus (BitVec.ofNat 39 (0x1000000000 + i.toNat * 2 ^ 32))) = .ok (.rdblk i) := by
  rw [ofNat_eq_busWord (rw := false) (off := (WindowReg.block i).offset) (v := 0#32)
    (by rw [block_offset_toNat, Bool.toNat_false, BitVec.toNat_zero]; omega)]
  exact decode_bus_eq_ok.mpr (decodeBus_rdblk i 0#32)

/-- Byte `k` of the word just written (`20_memory.md` R45). -/
theorem blockByte_put (m : Bank Word 4) (i : BitVec 4) (v : Word) (k : BitVec 2) :
    blockByte (m.put i v) (i ++ k) = wordByte v k := by
  rw [blockByte_append, Bank.get_put_same]

/-- Settles O13: `WRBLK` puts one word and one mark, and a put reads back at its own index only. -/
theorem writeBlockStoresWord : Obligations.WriteBlockStoresWord := by
  refine ⟨decode_wrblk_ofNat, fun s i v hi => ⟨_, execWrblk_eq_next.mpr ⟨hi, rfl⟩, rfl, Bank.get_put_same ..,
    Bank.get_put_same .., fun j hj => ⟨Bank.get_put_ne _ _ hj, Bank.get_put_ne _ _ hj⟩, ?_⟩⟩
  have hbyte := blockByte_put s.M i v
  exact ⟨hbyte 0#2, hbyte 1#2, hbyte 2#2, hbyte 3#2⟩

/-- Settles O14: `RDBLK` asks for the written mark alone, and `WRBLK` sets the mark of the word it stores. -/
theorem readBlockReturnsWord : Obligations.ReadBlockReturnsWord := by
  refine ⟨decode_rdblk_ofNat, fun s i hw => execRdblk_eq_next.mpr ⟨hw, rfl⟩, fun s u i v he => ?_⟩
  obtain ⟨-, rfl⟩ := execWrblk_eq_next.mp he
  have hget : (s.writeBlock i v).M.get i = v := Bank.get_put_same ..
  exact execRdblk_eq_next.mpr ⟨Bank.get_put_same .., by rw [hget]; rfl⟩

/-! ### The digest and the status -/

/-- The word of `RDH i` as a number (`30_encoding.md` R61). -/
theorem decode_rdh_ofNat (i : BitVec 3) :
    decode (.bus (BitVec.ofNat 39 (0x2000000000 + i.toNat * 2 ^ 32))) = .ok (.rdh i) := by
  rw [ofNat_eq_busWord (rw := false) (off := (WindowReg.digest i).offset) (v := 0#32)
    (by rw [digest_offset_toNat, Bool.toNat_false, BitVec.toNat_zero]; omega)]
  exact decode_bus_eq_ok.mpr (decodeBus_rdh i 0#32)

/-- `RDH i` with `READY = 1` (`43_commands.md` R137). -/
theorem execRdh_of_idle (hi : s.phase = .idle) (j : BitVec 3) : exec (.rdh j) s = .next (s.reply (s.H.get j)) := by
  rw [execRdh_eq_next, State.digestWord, if_pos (State.ready_iff.mpr hi), if_pos (State.ready_iff.mpr hi)]
  rfl

/-- `RDH i` with `READY = 0` draws a free value (R137, log entry 2). -/
theorem execRdh_of_busy (hb : s.phase ≠ .idle) (j : BitVec 3) :
    exec (.rdh j) s = .next ((s.reply (Config.freeWord s.draws)).drew 1) := by
  have hr : ¬ s.ready = true := mt State.ready_iff.mp hb
  rw [execRdh_eq_next, State.digestWord, if_neg hr, if_neg hr]

/-- Settles O15: `READY` alone decides which word `RDH` returns and whether it draws one. That the unspecified word is a
counted free value is the choice of log entry 2. -/
theorem readDigestReturnsWord : Obligations.ReadDigestReturnsWord :=
  ⟨decode_rdh_ofNat, fun _ i => ⟨fun hi => execRdh_of_idle hi i, fun hb => execRdh_of_busy hb i⟩⟩

/-- `STATUS` by the phase (`10_state.md` R31). -/
theorem State.statusWord_eq (s : State) :
    s.statusWord = if s.phase = .idle then 0x00000001#32 else 0x00000000#32 := by
  simp only [State.statusWord, State.ready_iff]

/-- Settles O16: `RDST` has no precondition and returns `STATUS`, and only `START` and `INITSTART` clear `READY`. -/
theorem readStatusReturnsReady : Obligations.ReadStatusReturnsReady := by
  refine ⟨decodeEncodeRoundTrip .rdst trivial, fun s => ?_, fun s u hi hstep hns hnis => ?_⟩
  · rw [← State.statusWord_eq]
    exact execRdst_eq_next.mpr rfl
  · by_contra hu
    rcases step_clears_ready hstep (State.ready_iff.mpr hi) (State.not_ready_iff.mpr hu) with hm | hm
    · exact hns hm
    · exact hnis hm

end Sys2Proof.Machine
end

section
/-!
PROOFS. The padding and its blocks (`44_host_contract.md` R150 to R153).
-/

namespace Sys2Proof.Machine

variable {msg msg' p : List Byte} {len len' j k n : Nat}

/-! ### The zero bytes -/

theorem padZeros_of_le (h : len % 64 ≤ 55) : padZeros len = 55 - len % 64 := by
  unfold padZeros; omega

theorem padZeros_of_ge (h : 56 ≤ len % 64) : padZeros len = 119 - len % 64 := by
  unfold padZeros; omega

/-- The zero bytes leave eight bytes for the length at the end of a block. -/
theorem padZeros_mod (len : Nat) : (len + 1 + padZeros len) % 64 = 56 := by
  unfold padZeros; omega

theorem padZeros_lt (len : Nat) : padZeros len < 64 := by
  unfold padZeros; omega

/-- Of the numbers that do so, `padZeros` is the one below 64, and so the least. -/
theorem padZeros_le {z : Nat} (h : (len + 1 + z) % 64 = 56) : padZeros len ≤ z := by
  have hz := padZeros_mod len
  have hlt := padZeros_lt len
  omega

/-! ### The length field -/

/-- Byte `k` of `BE64`, from the most significant on. -/
theorem getElem?_be64 (x : BitVec 64) (hk : k < 8) : (be64 x)[k]? = some (x.extractLsb' (8 * (7 - k)) 8) := by
  interval_cases k <;> rfl

/-- Eight bytes determine their number. -/
theorem be64_injective : Function.Injective be64 := by
  intro x y h
  refine BitVec.eq_of_getLsbD_eq fun b hb => ?_
  have hbyte : x.extractLsb' (8 * (b / 8)) 8 = y.extractLsb' (8 * (b / 8)) 8 := by
    have hk : 7 - b / 8 < 8 := by omega
    have hget := congrArg (·[7 - b / 8]?) h
    simp only [getElem?_be64 _ hk, Option.some.injEq] at hget
    rwa [show 7 - (7 - b / 8) = b / 8 by omega] at hget
  have hbit := congrArg (·.getLsbD (b % 8)) hbyte
  simpa [BitVec.getLsbD_extractLsb', Nat.mod_lt, Nat.div_add_mod] using hbit

/-- The bit-length of a message below `2^61` bytes does not wrap. -/
theorem bitLength_inj (hlen : len < 2 ^ 61) (hlen' : len' < 2 ^ 61) (h : bitLength len = bitLength len') :
    len = len' := by
  have hnat := congrArg BitVec.toNat h
  simp only [bitLength, BitVec.toNat_ofNat] at hnat
  omega

/-! ### The padded message -/

/-- The padding is a tail of the padded message. -/
theorem pad_eq_append (msg : List Byte) :
    pad msg = msg ++ 0x80#8 :: (List.replicate (padZeros msg.length) 0x00#8 ++ be64 (bitLength msg.length)) := by
  simp [pad]

theorem length_pad (msg : List Byte) : (pad msg).length = msg.length + 1 + padZeros msg.length + 8 := by
  simp [pad, be64]; omega

theorem length_pad_mod (msg : List Byte) : (pad msg).length % 64 = 0 := by
  have hz := padZeros_mod msg.length
  rw [length_pad]; omega

theorem getElem?_pad_message (hj : j < msg.length) : (pad msg)[j]? = msg[j]? := by
  rw [pad_eq_append, List.getElem?_append_left hj]

theorem getElem?_pad_mark (msg : List Byte) : (pad msg)[msg.length]? = some 0x80#8 := by
  simp [pad_eq_append]

theorem getElem?_pad_zero (hj : j < padZeros msg.length) : (pad msg)[msg.length + 1 + j]? = some 0x00#8 := by
  rw [pad_eq_append, List.getElem?_append_right (by omega), show msg.length + 1 + j - msg.length = j + 1 by omega,
    List.getElem?_cons_succ, List.getElem?_append_left (by simpa using hj), List.getElem?_replicate, if_pos hj]

theorem getElem?_pad_length (hk : k < 8) : (pad msg)[msg.length + 1 + padZeros msg.length + k]? =
    some (BitVec.ofNat 8 ((8 * msg.length) % 2 ^ 64 / 2 ^ (8 * (7 - k)))) := by
  have hfront : (msg ++ [0x80#8] ++ List.replicate (padZeros msg.length) 0x00#8).length =
      msg.length + 1 + padZeros msg.length := by simp [Nat.add_assoc, Nat.add_comm 1]
  rw [pad, ← hfront, List.getElem?_append_right (Nat.le_add_right ..), Nat.add_sub_cancel_left, getElem?_be64 _ hk]
  congr 1
  apply BitVec.eq_of_toNat_eq
  rw [BitVec.extractLsb'_toNat, bitLength, BitVec.toNat_ofNat, BitVec.toNat_ofNat, Nat.shiftRight_eq_div_pow]

/-- Settles O56: the padded message is its four parts one after another, and the number of zero bytes is a residue
modulo 64. -/
theorem paddingLengths : Obligations.PaddingLengths := by
  intro msg
  have hlen := length_pad msg
  have hz := padZeros_lt msg.length
  exact ⟨hlen, length_pad_mod msg, by omega, by omega, fun _ => getElem?_pad_message, getElem?_pad_mark msg,
    fun _ => getElem?_pad_zero, fun _ => getElem?_pad_length, padZeros_mod _, fun _ => padZeros_le,
    padZeros_of_le, padZeros_of_ge⟩

/-- Settles O57: the last eight bytes of a padded message tell its length, and so where the message ends. -/
theorem paddingInjective : Obligations.PaddingInjective := by
  intro msg msg' hlen hlen' h
  have hfield : be64 (bitLength msg.length) = be64 (bitLength msg'.length) := (List.append_inj' h rfl).2
  have hlength : msg.length = msg'.length := bitLength_inj hlen hlen' (be64_injective hfield)
  rw [pad_eq_append, pad_eq_append] at h
  exact (List.append_inj h hlength).1

/-! ### Blocks -/

theorem length_blocks (p : List Byte) : (blocks p).length = p.length / 64 := by
  simp [blocks]

theorem getElem?_blocks (hk : k < p.length / 64) : (blocks p)[k]? = some (blockAt p k) := by
  simp [blocks, hk]

/-- The byte that stands in a place of a sequence. -/
theorem getElem?_eq_some_getD (h : n < p.length) : p[n]? = some (p.getD n 0) := by
  simp [h]

/-- The place in its block of byte `c` of word `i`. -/
theorem toNat_byteIndex (i : BitVec 4) (c : BitVec 2) : (i ++ c).toNat = 4 * i.toNat + c.toNat := by
  revert i c; decide

/-- Word `i` of block `k` is the four bytes from `64k + 4i` on. -/
theorem blockAt_get (p : List Byte) (k : Nat) (i : BitVec 4) : (blockAt p k).get i =
    packWord (p.getD (64 * k + 4 * i.toNat) 0) (p.getD (64 * k + 4 * i.toNat + 1) 0)
      (p.getD (64 * k + 4 * i.toNat + 2) 0) (p.getD (64 * k + 4 * i.toNat + 3) 0) := by
  rw [blockAt, blockOfBytes_get]
  simp only [toNat_byteIndex, ← Nat.add_assoc]
  rfl

/-- The blocks of a padded message cover it. -/
theorem length_blocks_pad (msg : List Byte) : 64 * (blocks (pad msg)).length = (pad msg).length := by
  rw [length_blocks]
  exact Nat.mul_div_cancel' (Nat.dvd_of_mod_eq_zero (length_pad_mod msg))

/-- The padding alone makes a block. -/
theorem blocks_pad_ne_nil (msg : List Byte) : blocks (pad msg) ≠ [] := by
  intro h
  have hcover := length_blocks_pad msg
  rw [h, length_pad] at hcover
  cases hcover

/-- Settles O58: whole blocks hold whole words, and the padded length is the next multiple of 64 from `L + 9` on. -/
theorem blocksCoverMessage : Obligations.BlocksCoverMessage := by
  refine ⟨fun p n hp => ⟨?_, fun k hk => ⟨blockAt p k, getElem?_blocks ?_, fun i => ?_⟩⟩,
    fun msg => ⟨?_, length_blocks_pad msg⟩⟩
  · rw [length_blocks]; omega
  · omega
  · have hi := i.isLt
    exact ⟨_, _, _, _, getElem?_eq_some_getD (by omega), getElem?_eq_some_getD (by omega),
      getElem?_eq_some_getD (by omega), getElem?_eq_some_getD (by omega), blockAt_get p k i⟩
  · have hcover := length_blocks_pad msg
    have hz := padZeros_lt msg.length
    rw [length_pad] at hcover
    omega

end Sys2Proof.Machine
end

section
/-!
PROOFS. The digest as characters and as bytes (`44_host_contract.md` R154).
-/

namespace Sys2Proof.Machine

variable {α β : Type} {f : α → List β} {c j k : Nat}

/-! ### Lists of pieces of one length -/

theorem length_flatMap_of_length (hf : ∀ a, (f a).length = c) (l : List α) :
    (l.flatMap f).length = l.length * c := by
  simp [List.length_flatMap, hf]

/-- Place `j` of piece `i`. -/
theorem getElem?_flatMap_of_length (hf : ∀ a, (f a).length = c) (l : List α) (i : Nat) (hj : j < c) :
    (l.flatMap f)[c * i + j]? = l[i]?.bind fun a => (f a)[j]? := by
  induction l generalizing i with
  | nil => rfl
  | cons a l ih =>
    cases i with
    | zero => simp [List.getElem?_append, hf, hj]
    | succ i =>
      have hnext : c * (i + 1) + j = c + (c * i + j) := by rw [Nat.mul_succ]; omega
      rw [List.flatMap_cons, hnext, List.getElem?_append_right (by rw [hf]; omega), hf, Nat.add_sub_cancel_left,
        ih, List.getElem?_cons_succ]

/-- The words of a hash state in order, by index. -/
theorem getElem?_cells (s : Bank Word 3) (i : BitVec 3) : s.cells.toList[i.toNat]? = some (s.get i) := by
  have hi := i.isLt
  simp [Bank.get, hi]

/-! ### Characters -/

/-- `HEX(d)` is character `d` of `0123456789abcdef`. -/
theorem getElem?_hexDigits (d : BitVec 4) : "0123456789abcdef".toList[d.toNat]? = some (hexDigit d) := by
  revert d; decide

theorem length_hexWord (w : Word) : (hexWord w).length = 8 := rfl

/-- The most significant digit comes first. -/
theorem getElem?_hexWord (w : Word) (hj : j < 8) : (hexWord w)[7 - j]? = some (hexDigit (w.extractLsb' (4 * j) 4)) := by
  have hplace : [7, 6, 5, 4, 3, 2, 1, 0][7 - j]? = some j := by revert j; decide
  rw [hexWord, List.getElem?_map, hplace, Option.map_some]

theorem length_encodeChars (s : Bank Word 3) : (encodeChars s).length = 64 := by
  rw [encodeChars, length_flatMap_of_length length_hexWord, Vector.length_toList]; rfl

theorem getElem?_encodeChars (s : Bank Word 3) (i : BitVec 3) (hj : j < 8) :
    (encodeChars s)[8 * i.toNat + (7 - j)]? = some (hexDigit ((s.get i).extractLsb' (4 * j) 4)) := by
  rw [encodeChars, getElem?_flatMap_of_length length_hexWord _ _ (by omega), getElem?_cells, Option.bind_some,
    getElem?_hexWord _ hj]

/-- Every character is a lower-case hexadecimal digit. -/
theorem mem_hexDigits_of_mem_encodeChars {s : Bank Word 3} {a : Char} (ha : a ∈ encodeChars s) :
    a ∈ "0123456789abcdef".toList := by
  obtain ⟨w, -, hw⟩ := List.mem_flatMap.mp ha
  obtain ⟨j, -, rfl⟩ := List.mem_map.mp hw
  exact List.mem_of_getElem? (getElem?_hexDigits _)

/-! ### Bytes -/

/-- The bytes of a word, the most significant first. -/
def wordBytes (w : Word) : List Byte := [wordByte w 0, wordByte w 1, wordByte w 2, wordByte w 3]

theorem digestBytes_eq (s : Bank Word 3) : digestBytes s = s.cells.toList.flatMap wordBytes := rfl

theorem length_wordBytes (w : Word) : (wordBytes w).length = 4 := rfl

theorem getElem?_wordBytes (w : Word) (hk : k < 4) : (wordBytes w)[k]? = some (w.extractLsb' (24 - 8 * k) 8) := by
  interval_cases k <;> rfl

theorem length_digestBytes (s : Bank Word 3) : (digestBytes s).length = 32 := by
  rw [digestBytes_eq, length_flatMap_of_length length_wordBytes, Vector.length_toList]; rfl

theorem getElem?_digestBytes (s : Bank Word 3) (i : BitVec 3) (hk : k < 4) :
    (digestBytes s)[4 * i.toNat + k]? = some ((s.get i).extractLsb' (24 - 8 * k) 8) := by
  rw [digestBytes_eq, getElem?_flatMap_of_length length_wordBytes _ _ hk, getElem?_cells, Option.bind_some,
    getElem?_wordBytes _ hk]

/-- Settles O59: eight characters and four bytes to a word, the words in order. -/
theorem encodingShape : Obligations.EncodingShape :=
  ⟨getElem?_hexDigits, fun s => ⟨String.length_ofList.trans (length_encodeChars s), String.toList_ofList,
    fun _ => mem_hexDigits_of_mem_encodeChars, fun i _ => getElem?_encodeChars s i, length_digestBytes s,
    fun i _ => getElem?_digestBytes s i⟩⟩

end Sys2Proof.Machine
end

section
/-!
PROOFS. The command sequence of a digest (`44_host_contract.md` R156), performed by a run with engine turns anywhere
between its commands.
-/

namespace Sys2Proof.Machine

variable {s v : State} {d : Bank Word 3} {m n : Nat} {msg : List Byte}

/-- The run of `n` steps from `s` ends ready, with the digest `d` in `H` and as the last words returned. -/
def State.EndsWithDigest (s : State) (n : Nat) (d : Bank Word 3) : Prop :=
  ∃ u answers, run n s = .next u ∧ u.phase = .idle ∧ u.H = d ∧
    u.returned = s.returned ++ answers ++ d.cells.toList

/-- A first part of the run only adds to the words returned before the digest. -/
theorem State.EndsWithDigest.of_run (h : run m s = .next v) (hv : v.EndsWithDigest n d) :
    s.EndsWithDigest (m + n) d := by
  obtain ⟨u, answers, hu, hidle, hH, hret⟩ := hv
  obtain ⟨earlier, hearlier⟩ := run_returned h
  refine ⟨u, earlier ++ answers, (run_add h).trans hu, hidle, hH, ?_⟩
  rw [hret, hearlier, List.append_assoc s.returned]

/-- `RDDIGEST` at rest returns the hash state. -/
theorem endsWithDigest_of_rddigest (hs : s.AtRest) (hp : performs (commands rddigest) n s = true) :
    s.EndsWithDigest n s.H :=
  ⟨_, [], run_of_performs_rddigest hs hp, hs.idle, rfl, by rw [List.append_nil]⟩

/-- One `HASHBLK` for each block, then `RDDIGEST`: the blocks are compressed into `H` in order. -/
theorem endsWithDigest_of_hashblks {bs : List (Bank Word 4)} (hs : s.AtRest)
    (hp : performs (bs.flatMap hashblk ++ commands rddigest) n s = true) :
    s.EndsWithDigest n (bs.foldl compress s.H) := by
  induction bs generalizing s n with
  | nil => exact endsWithDigest_of_rddigest hs hp
  | cons b bs ih =>
    rw [List.flatMap_cons, List.append_assoc] at hp
    obtain ⟨m, k, rfl, hfirst, hrest⟩ := performs_append hp
    obtain ⟨u, hu, hc, hidle⟩ := run_of_performs_hashblk hs hfirst
    rw [markedRun_of_run hu] at hrest
    have hend := ih (hc.atRest hidle) hrest
    rw [hc.done hidle] at hend
    exact .of_run hu hend

/-- The blocks of a message from `IV`, as right after reset. -/
theorem endsWithDigest_of_blocksProgram (hs : s.AtRest) (hH : s.H = IV)
    (hp : performs (blocksProgram msg) n s = true) : s.EndsWithDigest n (sha256Words msg) := by
  have hend := endsWithDigest_of_hashblks hs hp
  rwa [hH] at hend

/-- `INIT` puts `IV` in `H`, whatever was there. -/
theorem endsWithDigest_of_digestProgram (hs : s.AtRest) (hp : performs (digestProgram msg) n s = true) :
    s.EndsWithDigest n (sha256Words msg) := by
  obtain ⟨m, k, v, es, rfl, hrun, hstep, hrest⟩ := performs_issue hs hp
  have hinit : step v = .next ({ s with pending := es } : State).loadIV :=
    hstep.trans (execInit_eq_next.mpr ⟨hs.idle, rfl⟩)
  rw [markedStep_of_next hinit] at hrest
  exact .of_run (run_snoc hrun hinit) (endsWithDigest_of_blocksProgram (hs.congr rfl rfl rfl) rfl hrest)

/-- `FIRSTBLK` compresses the first block into `IV`, whatever was in `H`. -/
theorem endsWithDigest_of_digestProgramFused (hs : s.AtRest) (hp : performs (digestProgramFused msg) n s = true) :
    s.EndsWithDigest n (sha256Words msg) := by
  obtain ⟨b, bs, hb⟩ := List.exists_cons_of_ne_nil (blocks_pad_ne_nil msg)
  simp only [digestProgramFused, hb, List.append_assoc] at hp
  obtain ⟨m, k, rfl, hfirst, hrest⟩ := performs_append hp
  obtain ⟨u, hu, hc, hidle⟩ := run_of_performs_firstblk hs hfirst
  rw [markedRun_of_run hu] at hrest
  have hend := endsWithDigest_of_hashblks (hc.atRest hidle) hrest
  rw [hc.done hidle, ← List.foldl_cons, ← hb] at hend
  exact .of_run hu hend

/-- Settles O47: each form of the sequence brings the engine to rest with `IV` in `H`, or the first block compressed into
`IV`, and goes on with `HASHBLK` for each block that is left and `RDDIGEST`. -/
theorem commandSequenceComputesDigest : Obligations.CommandSequenceComputesDigest := by
  intro s msg n hr hi ht hp
  have hs : s.AtRest := ⟨hr, hi, ht⟩
  rcases hp with hp | hp | ⟨hH, hp⟩
  · exact endsWithDigest_of_digestProgram hs hp
  · exact endsWithDigest_of_digestProgramFused hs hp
  · exact endsWithDigest_of_blocksProgram hs hH hp

end Sys2Proof.Machine
end

section
/-!
PROOFS. Refusals: the closed list of `60_exceptions.md` R174, the written marks, and the sticky mark.
-/

namespace Sys2Proof.Machine

variable {s u : State} {i : Instr} {x : RefusalReason} {w : BitVec 39}

/-! ### Which instructions are refused -/

/-- The refusal reason of an instruction in a state: rows `X6` to `X8` of `60_exceptions.md` R174, in order, by the
command that a transaction word stands for and not by the word's fields. -/
def commandRefusal (s : State) (i : Instr) : Option RefusalReason :=
  if isWrite i = true ∧ s.phase ≠ .idle then some .writeWhileBusy
  else if (i = .start ∨ i = .initstart) ∧ ∃ k, s.written.get k = false then some .startUnwritten
  else if ∃ k, i = .rdblk k ∧ s.written.get k = false then some .readUnwritten
  else none

/-- An instruction is refused exactly when a row of the list applies to it, and then for the row's reason. -/
theorem exec_eq_refused {r : Refusal} :
    exec i s = .refused r ↔ ∃ y, commandRefusal s i = some y ∧ r = y.refusal := by
  cases i with
  | nopc | init | wrblk =>
    refine State.whenReady_eq_refused.trans ?_
    by_cases hp : s.phase = .idle <;> simp [commandRefusal, isWrite, hp, eq_comm (b := r)]
  | start | initstart =>
    refine State.whenReady_eq_refused.trans ?_
    rw [State.whenBlockWritten_eq_refused]
    by_cases hp : s.phase = .idle <;> by_cases hw : ∃ k, s.written.get k = false <;>
      simp [commandRefusal, isWrite, hp, hw, eq_comm (b := r)]
  | rdblk k =>
    refine State.whenWordWritten_eq_refused.trans ?_
    cases hw : s.written.get k <;> simp [commandRefusal, isWrite, hw, eq_comm (b := r)]
  | rdh | rdst | loadw | copy | round | accum =>
    simp [exec, execRdh, execRdst, execLoadw, execCopy, execRound, execAccum, commandRefusal, isWrite]
  | expand t =>
    by_cases h16 : 16#6 ≤ t <;> simp [exec, execExpand, h16, commandRefusal, isWrite]

/-- An instruction to which a row of the list applies is refused for the row's reason. -/
theorem exec_of_commandRefusal (h : commandRefusal s i = some x) : exec i s = refuse x :=
  exec_eq_refused.mpr ⟨x, h, rfl⟩

/-- No row of the list applies to a micro-operation. -/
theorem commandRefusal_of_microOp (hk : isMicroOp i = true) : commandRefusal s i = none := by
  cases i with
  | loadw | expand | copy | round | accum => simp [commandRefusal, isWrite]
  | nopc | init | start | initstart | wrblk | rdblk | rdh | rdst => cases hk

/-- A write command is refused with `X6` while the engine is busy (`60_exceptions.md` R175). -/
theorem commandRefusal_of_busy (hb : s.phase ≠ .idle) (hk : isWrite i = true) :
    commandRefusal s i = some .writeWhileBusy :=
  if_pos ⟨hk, hb⟩

/-- `START` and `INITSTART` are refused with `X7` when a block word is unwritten (`60_exceptions.md` R177). -/
theorem commandRefusal_of_start (hp : s.phase = .idle) (hw : ∃ k, s.written.get k = false)
    (hi : i = .start ∨ i = .initstart) : commandRefusal s i = some .startUnwritten := by
  rw [commandRefusal, if_neg fun h => h.2 hp, if_pos ⟨hi, hw⟩]

/-- `RDBLK` of an unwritten word is refused with `X8` (`60_exceptions.md` R177). -/
theorem commandRefusal_of_rdblk {k : BitVec 4} (hw : s.written.get k = false) :
    commandRefusal s (.rdblk k) = some .readUnwritten := by
  simp [commandRefusal, isWrite, hw]

/-! ### Which transaction words are refused -/

/-- A word stands for `START` or `INITSTART` when it writes 2 or more to `CTRL` (`30_encoding.md` R62). -/
theorem decoded_start_iff (hd : decodeBus w = .ok i) :
    i = .start ∨ i = .initstart ↔ busWrites w = true ∧ (busOffset w).toNat = 0x00 ∧ 2 ≤ (busData w).toNat := by
  rcases decodeBus_eq_ok.mp hd with
    ⟨hr, hw, hc⟩ | ⟨hr, hw, rfl⟩ | ⟨j, hr, hw, rfl⟩ | ⟨j, hr, hw, rfl⟩ | ⟨j, hr, hw, rfl⟩
  · rcases decodeCtrl_eq_ok.mp hc with ⟨hv, rfl⟩ | ⟨hv, rfl⟩ | ⟨hv, rfl⟩ | ⟨hv, rfl⟩ <;>
      simp [hw, hv, busOffset_toNat hr, WindowReg.offset]
  · simp [hw]
  · simp [hw]
  · simp [busOffset_toNat hr, block_offset_toNat]
  · simp [hw]

/-- A word stands for `RDBLK k` when it reads the offset `0x10 + k` (`30_encoding.md` R63). -/
theorem decoded_rdblk_iff (hd : decodeBus w = .ok i) (k : BitVec 4) :
    i = .rdblk k ↔ k = BitVec.ofNat 4 ((busOffset w).toNat - 0x10) ∧
      busWrites w = false ∧ 0x10 ≤ (busOffset w).toNat ∧ (busOffset w).toNat ≤ 0x1F := by
  rcases decodeBus_eq_ok.mp hd with
    ⟨hr, hw, hc⟩ | ⟨hr, hw, rfl⟩ | ⟨j, hr, hw, rfl⟩ | ⟨j, hr, hw, rfl⟩ | ⟨j, hr, hw, rfl⟩
  · have hne : i ≠ .rdblk k := by rintro rfl; simpa using decodeCtrl_eq_ok.mp hc
    simp [hw, hne]
  · simp [busOffset_toNat hr, WindowReg.offset]
  · have hle : 0x10 + j.toNat ≤ 0x1F := by omega
    simp [hw, busOffset_toNat hr, block_offset_toNat, hle, eq_comm]
  · simp [hw]
  · have hgt : ¬ 0x20 + j.toNat ≤ 0x1F := by omega
    simp [busOffset_toNat hr, digest_offset_toNat, hgt]

/-- The rows that apply to a word that decodes are those that apply to its command. -/
theorem refusalReason_of_ok (hd : decodeBus w = .ok i) : refusalReason s w = commandRefusal s i := by
  obtain ⟨-, hw, -⟩ := kind_of_decodeBus hd
  simp only [refusalReason, reservedReason_of_ok hd, commandRefusal, hw, decoded_start_iff hd, decoded_rdblk_iff hd,
    and_assoc, exists_eq_left]

/-- The rows that apply to a reserved word are those that apply in every state. -/
theorem refusalReason_of_error {e : BusReject} (hd : decodeBus w = .error e) :
    refusalReason s w = some (refusalOf e) := by
  rw [refusalReason, reservedReason_of_error hd]

/-- Settles O17: a word that the decoder rejects is refused for the decoder's reason, and one that decodes is refused
when its command is. -/
theorem refusalListIsExact : Obligations.RefusalListIsExact := by
  intro s w rest r hr hp
  cases hd : decodeBus w with
  | error e => simp [step_of_rejected hr hp hd, refusalReason_of_error hd, eq_comm]
  | ok i =>
    rw [stepRunsTransaction s w rest i hr hp (decode_bus_eq_ok.mpr hd), exec_eq_refused, refusalReason_of_ok hd]
    rfl

/-- Settles O18: `READY` is the first precondition of every write command, and a write transaction is marked, reserved,
or a write command. -/
theorem noWriteWhileBusy : Obligations.NoWriteWhileBusy := by
  refine ⟨fun s i hb hk => exec_of_commandRefusal (commandRefusal_of_busy hb hk), fun s w rest hb hp hw => ?_⟩
  cases hr : s.refused with
  | some x => exact ⟨_, step_of_refuse (nextMove_of_marked hr (by rw [hp]; nofun))⟩
  | none =>
    cases hd : decodeBus w with
    | error e => exact ⟨_, step_of_rejected hr hp hd⟩
    | ok i =>
      obtain ⟨-, hkind, -⟩ := kind_of_decodeBus hd
      have hk : isWrite i = true := hkind.trans hw
      have hstep := stepRunsTransaction s w rest i hr hp (decode_bus_eq_ok.mpr hd)
      exact ⟨_, hstep.trans (exec_of_commandRefusal (commandRefusal_of_busy hb hk))⟩

/-! ### The written marks -/

/-- Settles O19: `START`, `INITSTART` and `RDBLK` meet rows `X7` and `X8` of the list, `WRBLK` puts the mark of its own
word, and reset fills the marks with `false`. -/
theorem unwrittenBlockRefused : Obligations.UnwrittenBlockRefused := by
  refine ⟨fun s hp hw => ⟨exec_of_commandRefusal (commandRefusal_of_start hp hw (.inl rfl)),
      exec_of_commandRefusal (commandRefusal_of_start hp hw (.inr rfl))⟩,
    fun s i hw => exec_of_commandRefusal (commandRefusal_of_rdblk hw), fun s u i v h => ?_,
    fun s hr => ⟨_, step_of_reset hr, Bank.get_fill false⟩⟩
  obtain ⟨-, rfl⟩ := execWrblk_eq_next.mp h
  exact Bank.get_put_same ..

/-! ### The sticky mark -/

/-- A marked run that is not reset uses its event up and keeps its mark. -/
theorem markedStep_of_marked (hr : s.refused = some x) (hp : s.pending.head? ≠ some .reset) :
    markedStep s = s.afterFetch := by
  rw [markedStep_of_refuse (step_of_refuse (nextMove_of_marked hr hp)), ← hr]
  rfl

/-- The mark outlives any number of events but a reset. -/
theorem markedRun_of_marked {n : Nat} (hr : s.refused = some x) (hn : ∀ e ∈ s.pending.take n, e ≠ .reset) :
    (markedRun n s).refused = some x := by
  induction n generalizing s with
  | zero => exact hr
  | succ n ih =>
    have hp : s.pending.head? ≠ some .reset := fun h =>
      hn .reset (by rw [List.eq_cons_of_mem_head? h]; exact List.mem_cons_self) rfl
    rw [markedRun, markedStep_of_marked hr hp]
    refine ih hr fun e he => hn e ?_
    exact List.mem_of_mem_tail (by rwa [List.tail_take_eq_take_tail])

/-- No step that goes on touches the mark, but for a reset. -/
theorem step_mark (h : step s = .next u) : u.refused = s.refused ∨ s.nextMove = .reset := by
  rcases step_cases h with ⟨hr, -⟩ | ⟨i, -, he⟩ | ⟨-, rfl⟩
  · exact .inr hr
  · exact .inl (exec_refused_pending he).1
  · exact .inl rfl

/-- Settles O20: a refused event sets the mark, a marked run refuses every event but a reset and so keeps it, and a
reset clears it. That a marked run refuses every event is the choice of log entry 7. -/
theorem refusedMarkIsSticky : Obligations.RefusedMarkIsSticky := by
  refine ⟨fun s x h => by rw [markedStep_of_refuse h], fun n s x => markedRun_of_marked,
    fun s x hr hp => step_of_refuse (nextMove_of_marked hr hp), fun s hp => ?_, fun s u => step_mark⟩
  have hreset : s.nextMove = .reset := nextMove_eq_reset.mpr ⟨_, List.eq_cons_of_mem_head? hp⟩
  rw [markedStep_of_next (step_of_reset hreset)]
  rfl

end Sys2Proof.Machine
end

section
/-!
PROOFS. Faults: only at selectors outside the table of `30_encoding.md` R67, so that every well-formed micro-operation
completes (`60_exceptions.md` R170).
-/

namespace Sys2Proof.Machine

variable {s : State} {i : Instr} {t : BitVec 6} {f : Fault}

/-- `EXPAND` of an index that no selector of the table holds is a fault (log entry 6). -/
theorem execExpand_of_lt (h16 : t < 16#6) : exec (.expand t) s = .fault .unreachableSelector :=
  if_neg (BitVec.not_le.mpr h16)

/-- No instruction that the formats can express is a fault. -/
theorem exec_ne_fault (hw : WellFormed i) : exec i s ≠ .fault f := by
  intro h
  cases i with
  | nopc | init | wrblk => cases (State.whenReady_eq_fault.mp h).2
  | start | initstart => cases (State.whenBlockWritten_eq_fault.mp (State.whenReady_eq_fault.mp h).2).2
  | rdblk => cases (State.whenWordWritten_eq_fault.mp h).2
  | rdh | rdst | loadw | copy | round | accum => cases h
  | expand t => cases (execExpand_eq_next.mpr ⟨hw, rfl⟩).symm.trans h

/-- No micro-operation is refused. -/
theorem exec_microOp_ne_refused {r : Refusal} (hk : isMicroOp i = true) : exec i s ≠ .refused r := by
  intro h
  obtain ⟨y, hy, -⟩ := exec_eq_refused.mp h
  cases (commandRefusal_of_microOp hk).symm.trans hy

/-- `LOADW` as a record update, whatever is written (`41_schedule.md` R100, log entry 3). -/
theorem execLoadw_eq (s : State) : exec .loadw s = .next { s with
    W := loadSchedule s.loadWord s.W
    phase := .expand
    t := 16#6
    draws := s.draws + if s.allWritten then 0 else 16 } := by
  rw [execLoadw_eq_next, State.setW, State.drew, State.goto]

/-- Settles O22: a micro-operation is never refused, and a well-formed one is no fault; `LOADW` takes a written word
whatever it takes from the others. That those are free values is the choice of log entry 3. -/
theorem microOpsComplete : Obligations.MicroOpsComplete := by
  refine ⟨fun s i hk hw => ?_, fun s => ⟨_, execLoadw_eq s, rfl, fun k hk => ?_⟩⟩
  · cases h : exec i s with
    | next u => exact ⟨u, rfl⟩
    | fault f => exact absurd h (exec_ne_fault hw)
    | refused r => exact absurd h (exec_microOp_ne_refused hk)
  · exact (loadSchedule_get_block _ _ k).trans (State.loadWord_of_written hk)

/-! ### Steps -/

/-- A selector outside the table is what a legal selector is not (`10_state.md` R28, `30_encoding.md` R67). -/
theorem seqMove_eq_unreachable {p : Phase} : seqMove (selector p t) = .unreachable ↔ ¬ legalSelector p t := by
  rw [seqMove_eq]
  cases p with
  | idle | load | copy | accum => by_cases ht : t = 0#6 <;> simp [microOp, legalSelector, ht]
  | expand => by_cases h16 : 16#6 ≤ t <;> simp [microOp, legalSelector, h16]
  | round => simp [microOp, legalSelector]

/-- A transaction is run or refused. -/
theorem busMove_ne_unreachable (w : BitVec 39) : busMove w ≠ .unreachable := by
  rw [busMove_eq]
  cases decodeBus w <;> nofun

/-- Only the engine's turn in an unmarked run, at a selector outside the table, has no meaning (log entry 6). -/
theorem nextMove_eq_unreachable :
    s.nextMove = .unreachable ↔ s.refused = none ∧ s.EngineTurn ∧ ¬ legalSelector s.phase s.t := by
  unfold State.nextMove State.EngineTurn
  split <;> rename_i hp <;> rw [hp]
  · simp
  all_goals
    cases hr : s.refused <;>
      simp [State.unlessMarked, hr, State.selector, seqMove_eq_unreachable, busMove_ne_unreachable]

/-- An instruction the machine runs is well-formed. -/
theorem wellFormed_of_nextMove (h : s.nextMove = .run i) : WellFormed i := by
  rcases (nextMove_eq_run.mp h).2 with ⟨w, rest, -, hd⟩ | ⟨-, hm⟩
  · exact (encode_of_decodeBus hd).1
  · exact (isMicroOp_of_microOp hm).2

/-- Every step that is a fault is one of the engine's, at a selector outside the table. -/
theorem nextMove_of_fault (h : step s = .fault f) : s.nextMove = .unreachable := by
  cases hm : s.nextMove with
  | reset => cases (step_of_reset hm).symm.trans h
  | run i => exact absurd ((step_of_run hm).symm.trans h) (exec_ne_fault (wellFormed_of_nextMove hm))
  | idle => cases (step_of_idle hm).symm.trans h
  | refuse r => cases (step_of_refuse hm).symm.trans h
  | unreachable => rfl

/-- Settles O41: what the machine runs is well-formed, so that only a selector outside the table is a fault. That it
and `EXPAND` below 16 are faults is the choice of log entry 6. -/
theorem noStepFaults : Obligations.NoStepFaults := by
  refine ⟨fun s f hl h => ?_, fun s i x => exec_microOp_ne_refused, fun s t => execExpand_of_lt,
    fun s hr ht hl => step_of_unreachable (nextMove_eq_unreachable.mpr ⟨hr, ht, hl⟩)⟩
  obtain ⟨-, -, hillegal⟩ := nextMove_eq_unreachable.mp (nextMove_of_fault h)
  exact hillegal hl

end Sys2Proof.Machine
end

section
/-!
PROOFS. Reset takes effect in every state (`70_reset_and_hazards.md` R190).
-/

namespace Sys2Proof.Machine

variable {s : State} {rest : List Event}

/-- The whole next state of a pending reset: the engine and the mark as after reset, and of the interface the events
behind it, the words returned and the count of free values, whose keeping is the choice of log entry 8. -/
theorem step_of_pending_reset (hp : s.pending = .reset :: rest) :
    step s = .next { State.reset with pending := rest, returned := s.returned, draws := s.draws } := by
  rw [step_of_reset (nextMove_eq_reset.mpr ⟨rest, hp⟩), State.applyReset, State.afterFetch_pending, hp]
  rfl

/-- Settles O33: a pending reset wins over the mark and the busy engine, and leads to the values of the state after
reset. That the events behind it and the words returned are kept is the choice of log entry 8. -/
theorem resetAbortsAnything : Obligations.ResetAbortsAnything := by
  intro s rest hp
  obtain ⟨hH, hphase, ht, hready, hstatus, hwritten, hmark⟩ := resetStateValues
  exact ⟨_, step_of_pending_reset hp, hH, hphase, ht, hready, hstatus, hwritten, hmark, rfl, rfl⟩

end Sys2Proof.Machine
end
